-- ==== Sys2Proof/Word.lean ====
section
/-! DEFINITION. The fixed-width types of the block (00_scope.md R7, R9; 20_memory.md R51). -/

namespace Sys2Proof

/-- `bits64`: a 64-bit pattern, read as `u64` by `toNat` and as `i64` by `toInt` (R9). -/
abbrev Word := BitVec 64

/-- One octet; bit 7 is its most significant bit (R8, R51). -/
abbrev Byte := BitVec 8

/-- One 7-bit group of a magnitude (R80, field `g`). -/
abbrev Group := BitVec 7

/-- The 2-bit operation code `OP` (R90). -/
abbrev Code := BitVec 2

end Sys2Proof
end

