-- ==== Sys2Proof/Config.lean ====
section
/-! DEFINITION. The block's parameters (00_scope.md R6) and the free values of the model.
`HOST_BINDING` is left open by the spec and no rule depends on it, so it has no constant here (log entry 14). -/

namespace Sys2Proof.Config

/-- `GROUP_MAX`, the largest magnitude emitted without continuation (R6). -/
def groupMax : Word := 127

/-- `GROUP_W`, bits of payload per octet (R6). -/
def groupW : Nat := 7

/-- `MAX_ENC_LEN`, most octets an encode produces, and the size of `OBUF` (R6, R53). -/
def maxEncLen : Nat := 10

/-- `ILEN_MAX`, largest input buffer length (R6). -/
def ilenMax : Nat := 2 ^ 64 - 1

/-- A free 64-bit value, one for each draw: what a host read of `VAL` or `CNT` brings back where the spec
leaves it unspecified to the host (93_implementation_defined.md U3, U4). DESIGN CHOICE, safe: log entry 7. -/
opaque freeWord : Nat → Word

/-- A free octet, one for each draw: what a host read of an unspecified `OBUF` entry brings back (U4, U5).
DESIGN CHOICE, safe: log entry 7. -/
opaque freeOctet : Nat → Byte

/-- A free bit, one for each draw: `STATUS[1]` as the host sees it after a decode that ended in error (U3, R27).
DESIGN CHOICE, safe: log entry 7. -/
opaque freeBit : Nat → Bool

end Sys2Proof.Config
end

