-- ==== Sys2Proof/Syntax.lean ====
section
/-! DEFINITION. The instructions: one constructor per row of spec/opcode_table.json. -/

namespace Sys2Proof

/-- The four commands (30_encoding.md R90, R91) and the two classes of wire octet (R80, R81).
A command carries no field: its operand is not part of the code word (R90). A wire octet carries its group. -/
inductive Instr where
  /-- `ENCU`, encode unsigned (R140). -/
  | encu
  /-- `DECU`, decode unsigned (R141). -/
  | decu
  /-- `ENCS`, encode signed (R162). -/
  | encs
  /-- `DECS`, decode signed (R163). -/
  | decs
  /-- `CONT`, a continuation octet `1ggggggg` (R81). -/
  | cont (g : Group)
  /-- `LAST`, a terminating octet `0ggggggg` (R81). -/
  | last (g : Group)
deriving DecidableEq, Repr

end Sys2Proof
end

