-- ==== Sys2Proof/WellFormed.lean ====
section
/-! DEFINITION. What the spec requires of a term before it means anything. -/

namespace Sys2Proof

/-- Every instruction the types can write is one of the spec's: all four codes are used (R91), every octet is legal
(R81), and a group is seven bits by its type (R80). So there is no check to fail. -/
def Instr.wellFormed (i : Instr) : Bool :=
  match i with
  | .encu => true
  | .decu => true
  | .encs => true
  | .decs => true
  | .cont _ => true
  | .last _ => true

/-- The one bound the spec puts on an operand: an input buffer holds at most `ILEN_MAX` octets (20_memory.md R52). -/
def inputWellFormed (octets : List Byte) : Bool :=
  decide (octets.length ≤ Config.ilenMax)

end Sys2Proof
end

