-- ==== Sys2Proof/Decode.lean ====
section
/-! DEFINITION. Decoding and encoding of the two formats (30_encoding.md R80, R81, R90, R91). -/

namespace Sys2Proof

/-- The two formats of spec/opcode_table.json. They never meet on one input: a command comes from the host, a wire
octet stands in a buffer. -/
inductive Format where
  /-- `CMD2`, the command code (R90). -/
  | cmd2
  /-- `WIRE_OCTET`, one octet of a value (R80). -/
  | wireOctet
deriving DecidableEq, Repr

/-- Why bytes are no instruction of a format. -/
inductive DecodeError where
  /-- There is no byte to read. -/
  | noByte
  /-- A byte that carries a command code has a bit above bit 1 set (log entry 5). -/
  | notACommandCode
deriving DecidableEq, Repr

/-- The format of an instruction's word. -/
def Instr.format (i : Instr) : Format :=
  match i with
  | .encu => .cmd2
  | .decu => .cmd2
  | .encs => .cmd2
  | .decs => .cmd2
  | .cont _ => .wireOctet
  | .last _ => .wireOctet

/-- The operation map: bit 1 is signedness, bit 0 direction, and no code is left over (R90, R91). -/
def decodeCommand (code : Code) : Instr :=
  match code.getLsbD 1, code.getLsbD 0 with
  | false, false => .encu
  | false, true => .decu
  | true, false => .encs
  | true, true => .decs

/-- Bit 7 is the continuation flag and bits 6:0 the group; every octet is legal (R80, R81). -/
def decodeOctet (b : Byte) : Instr :=
  if b.getLsbD 7 then .cont (b.setWidth 7) else .last (b.setWidth 7)

/-- A command code carried in one byte: bits 1:0 are the code, bits 7:2 are 0.
DESIGN CHOICE (log entry 5): the spec gives a command 2 bits and no byte. Safe. -/
def decodeCommandByte (b : Byte) : Except DecodeError Instr :=
  if b.toNat < 4 then .ok (decodeCommand (b.setWidth 2)) else .error .notACommandCode

/-- The instruction at the head of a list of bytes of one format, and the bytes after it. -/
def decode (f : Format) (bytes : List Byte) : Except DecodeError (Instr × List Byte) :=
  match bytes with
  | [] => .error .noByte
  | b :: rest =>
    match f with
    | .wireOctet => .ok (decodeOctet b, rest)
    | .cmd2 =>
      match decodeCommandByte b with
      | .ok i => .ok (i, rest)
      | .error e => .error e

/-- The word of an instruction, from R91's map and R80's field table. -/
def encodeByte (i : Instr) : Byte :=
  match i with
  | .encu => 0b00
  | .decu => 0b01
  | .encs => 0b10
  | .decs => 0b11
  | .cont g => (1#1 ++ g : BitVec 8)
  | .last g => (0#1 ++ g : BitVec 8)

/-- The bytes of an instruction: always one. -/
def encode (i : Instr) : List Byte :=
  [encodeByte i]

/-- The instruction a word of spec/opcode_table.json stands for. The table's two formats share the numbers 0 to 3 once
a row is counted in whole bytes (`ENCU` is 0x00 and so is `LAST` with group 0): DESIGN CHOICE (log entry 5), such a
word is read as the command. The machine never meets the ambiguity. -/
def decodeTableWord (nbits w : Nat) : Option Instr :=
  if nbits ≤ 8 ∧ w < 4 then some (decodeCommand (BitVec.ofNat 2 w))
  else if nbits = 8 ∧ w < 256 then some (decodeOctet (BitVec.ofNat 8 w))
  else none

end Sys2Proof
end

