-- ==== Sys2Proof/Machine/State.lean ====
section
/-! DEFINITION. The state of the block and of its host, the reasons a step can stop, and the state after reset. -/

namespace Sys2Proof.Machine

/-- `PHASE` (10_state.md R25): three values and no fourth (93_implementation_defined.md U9). -/
inductive Phase where
  /-- No operation has been started since reset. -/
  | idle
  /-- An operation has been started and has not produced its result. -/
  | run
  /-- The last operation's result is held and may be read. -/
  | done
deriving DecidableEq, Repr

/-- What the host does to the block (43_sequencing_and_host.md R198). -/
inductive HostMove where
  /-- Start the operation of a 2-bit code (R191, R192). -/
  | start (code : Code)
  /-- Drive the value operand of the next encode (R90). -/
  | setValue (v : Word)
  /-- Present the input buffer of the next decode, `ILEN` being its length (20_memory.md R52). -/
  | setInput (octets : List Byte)
  /-- Read `STATUS`, in any phase (10_state.md R28, R35). -/
  | readStatus
  /-- Read `VAL` (R35). -/
  | readVal
  /-- Read `CNT` (R35). -/
  | readCnt
  /-- Read `OBUF[i]` (R35). -/
  | readObuf (i : Nat)
  /-- Assert reset (70_reset_and_hazards.md R280). -/
  | reset
  /-- Let the engine take one step, if it has one. -/
  | tick
  /-- Wait until `PHASE` is not `RUN`. -/
  | waitDone
deriving DecidableEq, Repr

/-- What a read gives the host. -/
inductive HostValue where
  | status (bits : BitVec 4)
  | val (w : Word)
  | cnt (w : Word)
  | octet (b : Byte)
deriving DecidableEq, Repr

/-- `ParseError`: one kind, no payload (60_exceptions.md R250, R252, R253). -/
inductive ParseError where
  | malformedOrTruncated
deriving DecidableEq, Repr

/-- What `GDEC` answers when it does not fail (40_group_codec.md R116). -/
structure Decoded where
  mag : Word
  consumed : Nat
  ovf : Bool
deriving DecidableEq, Repr

/-- The response of an operation (00_scope.md R13, 43_sequencing_and_host.md R194). -/
inductive Response where
  /-- The octets an encode produced. -/
  | octets (s : List Byte)
  /-- `Ok` of `DECU`: the value is a `u64`. -/
  | okUnsigned (value : Nat) (consumed : Nat) (ovf : Bool)
  /-- `Ok` of `DECS`: the value is an `i64`. -/
  | okSigned (value : Int) (consumed : Nat) (ovf : Bool)
  /-- `Err(ParseError)`, with nothing inside. -/
  | err (e : ParseError)
deriving DecidableEq, Repr

/-- Why the machine stops. Both are indices the spec says do not exist; no state that meets the invariant of
Sys2Proof/Safety.lean raises the first from the engine, or the second at all. Safe (log entry 10). -/
inductive Fault where
  /-- Raised by a write of `OBUF[CNT]` with `CNT` above 9 and by a host read of `OBUF[i]` with `i` above 9: `OBUF` has
  the indices 0 to 9 (20_memory.md R53, R59). Safe. -/
  | obufIndex
  /-- Raised by a decode step whose `CNT` is past `ILEN`: `IBUF[i]` is defined for `i < ILEN` (R58). Safe. -/
  | ibufIndex
deriving DecidableEq, Repr

/-- Why a step has no meaning. All are safe: the spec gives these moves none (log entry 9). -/
inductive Refusal where
  /-- Raised by an arm of `exec` whose instruction has no meaning yet. Safe. -/
  | notModelled (mnemonic : String)
  /-- Raised by the four commands while `PHASE = RUN` (R199; 93_implementation_defined.md U7). Safe. -/
  | startWhileRunning
  /-- Raised by a host read of `VAL`, `CNT` or `OBUF` while `PHASE = RUN` (R287; U6). Safe. -/
  | readWhileRunning
  /-- Raised by a host that changes `IBUF` or `ILEN` while `PHASE = RUN` (20_memory.md R63; U8). Safe. -/
  | inputChangedWhileRunning
  /-- Raised by a host that presents more than `ILEN_MAX` octets: R52 bounds `ILEN`, and the refusal is DEDUCED (log
  entry 9). Safe. -/
  | inputTooLong
  /-- Raised by `CONT` and `LAST` when no operation is running: the engine then has no step (R193). Safe. -/
  | noOperationRunning
  /-- Raised by `CONT` and `LAST` in an encode when `ENC_STEP` does not emit that octet (40_group_codec.md R115).
  Safe (log entry 6). -/
  | octetNotDue
deriving DecidableEq, Repr

/-- `OBUF` as memory: the ten octets (10_state.md R29), as a list of cells by rising index. An index below 10 that is not
listed holds the octet `obufUnlisted` of Sys2Proof/Machine/Ops.lean (log entry 8). -/
abbrev Memory := List Host.Cell

/-- The block's registers (10_state.md section 2), the host-side inputs the block reads, and the model's own fields.
`STATUS` and `ILEN` are views and are stored nowhere. -/
structure State where
  /-- `OP`, the operation in progress or last run (R21). -/
  op : Code
  /-- `VAL`, operand of an encode, result of a decode (R22). -/
  val : Word
  /-- `MAG`, the remaining or accumulated magnitude (R23). -/
  mag : Word
  /-- `CNT`, octets produced or consumed so far (R24). -/
  cnt : Word
  /-- `PHASE` (R25). -/
  phase : Phase
  /-- `ERR` (R26). -/
  err : Bool
  /-- `OVF` (R27). -/
  ovf : Bool
  /-- `OBUF`, ten octets, each of which holds a value (R29; 20_memory.md R53). -/
  obuf : Memory
  /-- The value operand the host drives (30_encoding.md R90; 20_memory.md R65). -/
  value : Word
  /-- `IBUF`, index 0 first; `ILEN` is its length (R30, R52). -/
  ibuf : List Byte
  /-- The host's coming moves, oldest first. The model's own (log entry 2). -/
  moves : List HostMove
  /-- What the host has read, oldest first. The model's own (log entry 2). -/
  got : List HostValue
  /-- How many free values have been drawn. The model's own (log entry 7). -/
  draws : Nat
deriving DecidableEq, Repr

/-- The machine right after reset: `PHASE`, `ERR` and `OVF` as 10_state.md R34 states them. DESIGN CHOICE (log entry 1):
`OP`, `VAL`, `MAG`, `CNT` and the ten octets of `OBUF`, which the spec leaves unspecified, are 0 (of `OBUF` nothing is
listed, and an unlisted octet reads as 0). The host
has driven nothing, plans nothing and has read nothing. -/
def State.reset : State where
  op := 0
  val := 0
  mag := 0
  cnt := 0
  phase := .idle
  err := false
  ovf := false
  obuf := []
  value := 0
  ibuf := []
  moves := []
  got := []
  draws := 0

end Sys2Proof.Machine
end

