-- ==== Sys2Proof/Machine/Operands.lean ====
section
/-! DEFINITION. Bit-level operators and the operand forms: groups, octets, zig-zag, buffer indices. -/

namespace Sys2Proof.Machine

/-- `shl64`: the value times `2^k`, modulo `2^64`; the amount is not reduced (00_scope.md R10, R221). -/
def shl64 (p : Word) (k : Nat) : Word := p <<< k

/-- `shr64`: the logical right shift (R10, R224). -/
def shr64 (p : Word) (k : Nat) : Word := p >>> k

/-- `sar64`: the arithmetic right shift (R10, R222). -/
def sar64 (p : Word) (k : Nat) : Word := p.sshiftRight k

/-- `GRP`: the low 7 bits of a magnitude (40_group_codec.md R110). -/
def grp (m : Word) : Group := m.setWidth 7

/-- `TAG`: the flag above the group (R111). -/
def tag (c : Bool) (g : Group) : Byte := (BitVec.ofBool c ++ g : BitVec 8)

/-- `UNTAG`: the flag and the group of an octet (R112). -/
def untag (b : Byte) : Bool × Group := (b.getLsbD 7, b.setWidth 7)

/-- The weighted group before truncation, `g * 2^(7*i)`, unbounded (R113). -/
def packFull (g : Group) (i : Nat) : Nat := g.toNat * 2 ^ (Config.groupW * i)

/-- The accumulator `PACK` leaves: the OR with the weighted group truncated to 64 bits (R113). -/
def packAcc (acc : Word) (g : Group) (i : Nat) : Word := acc ||| BitVec.ofNat 64 (packFull g i)

/-- `ZZ`, the zig-zag transform (42_signed_varint.md R160). -/
def zz (n : Word) : Word := shl64 n 1 ^^^ sar64 n 63

/-- `UNZZ`, its inverse, with the arithmetic on the unbounded integers (R161). -/
def unzz (m : Word) : Word :=
  if m.getLsbD 0 then BitVec.ofInt 64 (-((m.toNat / 2 : Nat) + 1 : Int)) else BitVec.ofNat 64 (m.toNat / 2)

/-- `OP[0]`: the operation is a decode (10_state.md R21). -/
def isDecode (op : Code) : Bool := op.getLsbD 0

/-- `OP[1]`: the operation is signed (R21). -/
def isSigned (op : Code) : Bool := op.getLsbD 1

/-- The magnitude an encode starts from (43_sequencing_and_host.md R191). -/
def operandMagnitude (op : Code) (v : Word) : Word := if isSigned op then zz v else v

/-- The value a decode ends with (R117). -/
def decodedValue (op : Code) (mag : Word) : Word := if isSigned op then unzz mag else mag

/-- The loop test of `ENC_STEP`, unsigned over all 64 bits (R115, 44_arithmetic_laws_and_invariants.md R225). -/
def continues (mag : Word) : Bool := decide (Config.groupMax < mag)

/-- `ILEN`: the length of `IBUF` as the 64-bit number `CNT` is compared with (20_memory.md R52; log entry 11). -/
def ilen (s : State) : Word := BitVec.ofNat 64 s.ibuf.length

/-- The `IBUF` index a decode step reads (R117). -/
def inputIndex (s : State) : Nat := s.cnt.toNat

/-- The `OBUF` index an encode step writes (R115). -/
def outputIndex (s : State) : Nat := s.cnt.toNat

end Sys2Proof.Machine
end

