-- ==== Sys2Proof/Machine/Flags.lean ====
section
/-! DEFINITION. The flags `OVF` and `ERR` and the `STATUS` view. -/

namespace Sys2Proof.Machine

/-- The lost-bit output of `PACK`: a 1 bit of the group fell at bit 64 or above (40_group_codec.md R113). -/
def packLost (g : Group) (i : Nat) : Bool := decide (packFull g i / 2 ^ 64 ≠ 0)

/-- `PACK` (R113). -/
def pack (acc : Word) (g : Group) (i : Nat) : Word × Bool := (packAcc acc g i, packLost g i)

/-- `OVF` after a group is packed: sticky within the operation (10_state.md R27, R117). -/
def stickyOvf (ovf lost : Bool) : Bool := ovf || lost

/-- The 2-bit code of `PHASE` (R25). -/
def phaseCode (p : Phase) : BitVec 2 :=
  match p with
  | .idle => 0b00
  | .run => 0b01
  | .done => 0b10

/-- `STATUS` with a given bit 1: `PHASE ‖ OVF ‖ ERR` (R28). -/
def statusBits (p : Phase) (ovf err : Bool) : BitVec 4 :=
  (phaseCode p ++ (BitVec.ofBool ovf ++ BitVec.ofBool err : BitVec 2) : BitVec 4)

/-- The `STATUS` view of the registers (R28). -/
def statusView (s : State) : BitVec 4 := statusBits s.phase s.ovf s.err

/-- The last operation was a decode and it ended with `ParseError`: `VAL`, `CNT` and `OVF` are then unspecified to the
host (R27, 60_exceptions.md R252). -/
def endedInError (s : State) : Bool := decide (s.phase = .done) && isDecode s.op && s.err

/-- The numeric cause code, if a host binding wants one (60_exceptions.md R250). -/
def causeCode (s : State) : Nat := if s.err then 1 else 0

end Sys2Proof.Machine
end

