-- ==== Sys2Proof/Machine/Ops.lean ====
section
/-! DEFINITION. The named operations over `OBUF`, `IBUF` and the registers, and taking the one error. -/

namespace Sys2Proof.Machine

/-- An outcome of the block. -/
abbrev Result := Host.Outcome State Fault Refusal

/-! ### `OBUF` -/

/-- What an octet of `OBUF` that is not listed reads as: 0, so every one of the ten octets holds a value from reset on.
DESIGN CHOICE, unsafe (log entries 1 and 8): the spec leaves the content after reset unspecified (10_state.md R29, R34). -/
def obufUnlisted : Byte := 0

/-- `OBUF[i]` (R29; 20_memory.md R53): the octet listed at the index, or what an unlisted one reads as. -/
def obufRead (m : Memory) (i : Nat) : Byte :=
  match m with
  | [] => obufUnlisted
  | (a, b) :: rest => if a = i then b else obufRead rest i

/-- Take an index out of the list, so that it reads as an unlisted one. -/
def obufErase (m : Memory) (i : Nat) : Memory := m.filter fun c => decide (c.1 ≠ i)

/-- List an octet at an index, keeping the indices strictly rising. -/
def obufInsert (m : Memory) (i : Nat) (b : Byte) : Memory :=
  match m with
  | [] => [(i, b)]
  | (a, c) :: rest =>
    if i < a then (i, b) :: (a, c) :: rest
    else if i = a then (i, b) :: rest
    else (a, c) :: obufInsert rest i b

/-- Replace the octet at an index and nothing else (20_memory.md R59). What an unlisted index reads as is not listed. -/
def obufStore (m : Memory) (i : Nat) (b : Byte) : Memory :=
  if b = obufUnlisted then obufErase m i else obufInsert m i b

/-- The listed indices rise strictly from `lo` on and stay below `hi`, and no listed octet is what an unlisted one reads
as. -/
def canonicalFrom (hi lo : Nat) (m : Memory) : Bool :=
  match m with
  | [] => true
  | (a, b) :: rest => decide (lo ≤ a) && decide (a < hi) && decide (b ≠ obufUnlisted) && canonicalFrom hi (a + 1) rest

/-- The canonical form of `OBUF`: indices strictly rising, all of them 0 to 9 (R53), no octet listed that reads the same
unlisted. -/
def Memory.wf (m : Memory) : Bool := canonicalFrom Config.maxEncLen 0 m

/-- `OBUF[0 .. n - 1]` (R53). -/
def obufOctets (m : Memory) (n : Nat) : List Byte := (List.range n).map (obufRead m)

/-! ### `IBUF` -/

/-- `IBUF[i]`, defined for `i < ILEN` (R58). -/
def ibufRead (s : State) (i : Nat) : Option Byte := s.ibuf[i]?

/-! ### Starts -/

/-- `START_ENC` (43_sequencing_and_host.md R191). `OBUF` is not written. -/
def startEncode (code : Code) (s : State) : State :=
  { s with
    op := code, val := s.value, mag := operandMagnitude code s.value, cnt := 0, err := false, ovf := false, phase := .run }

/-- `START_DEC` (R192). `VAL` and `OBUF` are not written. -/
def startDecode (code : Code) (s : State) : State :=
  { s with op := code, mag := 0, cnt := 0, err := false, ovf := false, phase := .run }

/-- A start is accepted only when `PHASE` is `IDLE` or `DONE` (R199); in `RUN` it is refused (U7). -/
def whenReady (s t : State) : Result :=
  match s.phase with
  | .run => .refused .startWhileRunning
  | .idle => .next t
  | .done => .next t

/-! ### The engine's register updates -/

/-- What `DEC_STEP` does with the group of an octet (40_group_codec.md R117). -/
def packGroup (g : Group) (s : State) : State :=
  { s with
    mag := (pack s.mag g (inputIndex s)).1
    ovf := stickyOvf s.ovf (pack s.mag g (inputIndex s)).2
    cnt := s.cnt + 1 }

/-- What `DEC_STEP` adds on the terminating octet, after the group is packed (R117). -/
def finishDecode (s : State) : State :=
  { s with val := decodedValue s.op s.mag, phase := .done }

/-- Write the octet of an encode at `OBUF[CNT]` and count it (R115). -/
def emitOctet (b : Byte) (s : State) : Result :=
  if outputIndex s < Config.maxEncLen then
    .next { s with obuf := obufStore s.obuf (outputIndex s) b, cnt := s.cnt + 1 }
  else .fault .obufIndex

/-- Go on with the state an operation leaves. -/
def andThen (r : Result) (k : State → State) : Result :=
  match r with
  | .next s => .next (k s)
  | .fault f => .fault f
  | .refused e => .refused e

/-- `MAG <- shr64(MAG, 7)` (R115). -/
def shiftMagnitude (s : State) : State := { s with mag := shr64 s.mag 7 }

/-- `PHASE <- DONE` (R115). -/
def finishEncode (s : State) : State := { s with phase := .done }

/-! ### The error, and reset -/

/-- Raising `ParseError`: the whole effect is `ERR <- 1`, `PHASE <- DONE`; nothing is saved and control goes nowhere
(60_exceptions.md R250, R255; R117). There is no return from it: the next start clears `ERR` (R259). -/
def raiseParseError (s : State) : State := { s with err := true, phase := .done }

/-- Reset of the block, from any state (70_reset_and_hazards.md R280, R281): the registers take the values of
`State.reset`; the host's inputs, its plans and what it has read are not the block's. -/
def resetBlock (s : State) : State :=
  { s with
    op := State.reset.op, val := State.reset.val, mag := State.reset.mag, cnt := State.reset.cnt
    phase := State.reset.phase, err := State.reset.err, ovf := State.reset.ovf, obuf := State.reset.obuf }

/-! ### What the host reads -/

/-- Hand a value to the host. -/
def deliver (v : HostValue) (s : State) : State := { s with got := s.got ++ [v] }

/-- Count one free value as drawn. -/
def drawn (s : State) : State := { s with draws := s.draws + 1 }

end Sys2Proof.Machine
end

