-- ==== Sys2Proof/Machine/Codec.lean ====
section
/-! DEFINITION. The function level (00_scope.md R12 (a)): the four operations as total functions, and the response read
off the registers. -/

namespace Sys2Proof.Machine

/-! ### The group encoder -/

/-- `GENC` with a bound on the continuation octets still to come. -/
def gencUpTo (fuel : Nat) (m : Word) : List Byte :=
  match fuel with
  | 0 => [tag false (grp m)]
  | n + 1 => if continues m then tag true (grp m) :: gencUpTo n (shr64 m 7) else [tag false (grp m)]

/-- `GENC` (40_group_codec.md R114). Nine continuation octets are the most a 64-bit magnitude takes (R232). -/
def genc (m : Word) : List Byte := gencUpTo 9 m

/-! ### The group decoder -/

/-- The least index whose octet has bit 7 = 0 (30_encoding.md R83; R116). -/
def terminatorIndex (s : List Byte) : Option Nat :=
  match s with
  | [] => none
  | b :: rest => if b.getLsbD 7 then (terminatorIndex rest).map (· + 1) else some 0

/-- The raw magnitude: the unbounded sum of group `i` times `2^(7i)` (R82). -/
def rawMagnitude (s : List Byte) : Nat :=
  match s with
  | [] => 0
  | b :: rest => b.toNat % 128 + 128 * rawMagnitude rest

/-- `GDEC` (R116). -/
def gdec (s : List Byte) : Except ParseError Decoded :=
  match terminatorIndex s with
  | none => .error .malformedOrTruncated
  | some k =>
    .ok { mag := BitVec.ofNat 64 (rawMagnitude (s.take (k + 1)))
          consumed := k + 1
          ovf := decide (2 ^ 64 ≤ rawMagnitude (s.take (k + 1))) }

/-! ### The four operations -/

/-- `ENCU` (41_unsigned_varint.md R140). -/
def encodeUnsigned (v : Word) : List Byte := genc v

/-- `DECU` (R141). -/
def decodeUnsigned (s : List Byte) : Response :=
  match gdec s with
  | .ok d => .okUnsigned d.mag.toNat d.consumed d.ovf
  | .error e => .err e

/-- `ENCS` (42_signed_varint.md R162). -/
def encodeSigned (v : Word) : List Byte := genc (zz v)

/-- `DECS` (R163). -/
def decodeSigned (s : List Byte) : Response :=
  match gdec s with
  | .ok d => .okSigned (unzz d.mag).toInt d.consumed d.ovf
  | .error e => .err e

/-- The function-level result of an operation code on its operands (R91). -/
def operationResult (op : Code) (value : Word) (input : List Byte) : Response :=
  match isDecode op, isSigned op with
  | false, false => .octets (encodeUnsigned value)
  | false, true => .octets (encodeSigned value)
  | true, false => decodeUnsigned input
  | true, true => decodeSigned input

/-! ### The response of the reference machine -/

/-- The response read off the registers at `DONE` (43_sequencing_and_host.md R194). -/
def response (s : State) : Option Response :=
  match s.phase with
  | .idle => none
  | .run => none
  | .done =>
    if isDecode s.op then
      if s.err then some (.err .malformedOrTruncated)
      else if isSigned s.op then some (.okSigned s.val.toInt s.cnt.toNat s.ovf)
      else some (.okUnsigned s.val.toNat s.cnt.toNat s.ovf)
    else some (.octets (obufOctets s.obuf s.cnt.toNat))

/-! ### The host's parse loop -/

/-- Decoding a buffer of several values one after another, each from the offset the `consumed` counts before it add up
to (44_arithmetic_laws_and_invariants.md R235); the schema says which are signed, and a value is its 64-bit pattern. -/
def parseValues (schema : List Bool) (buffer : List Byte) : Except ParseError (List Word) :=
  match schema with
  | [] => .ok []
  | signed :: more =>
    match gdec buffer with
    | .error e => .error e
    | .ok d =>
      match parseValues more (buffer.drop d.consumed) with
      | .error e => .error e
      | .ok vs => .ok ((if signed then unzz d.mag else d.mag) :: vs)

end Sys2Proof.Machine
end

