-- ==== Sys2Proof/Machine/Octet.lean ====
section
/-! DEFINITION. The two classes of wire octet as the engine's steps: consumed by a decode, emitted by an encode
(40_group_codec.md R115, R117; the "result" column of spec/opcode_table.json). -/

namespace Sys2Proof.Machine

/-- The octet `ENC_STEP` emits next (R115). -/
def octetDue (s : State) : Instr :=
  if continues s.mag then .cont (grp s.mag) else .last (grp s.mag)

/-- `CONT` in a decode: pack the group and read on (R117). -/
def consumeCont (g : Group) (s : State) : Result := .next (packGroup g s)

/-- `LAST` in a decode: pack the group, write `VAL` and finish (R117). -/
def consumeLast (g : Group) (s : State) : Result := .next (finishDecode (packGroup g s))

/-- `CONT` in an encode: emitted while the remaining magnitude exceeds 127, which is then shifted (R115). -/
def emitCont (g : Group) (s : State) : Result :=
  if octetDue s = .cont g then andThen (emitOctet (tag true g) s) shiftMagnitude else .refused .octetNotDue

/-- `LAST` in an encode: emitted once, and it finishes (R115). -/
def emitLast (g : Group) (s : State) : Result :=
  if octetDue s = .last g then andThen (emitOctet (tag false g) s) finishEncode else .refused .octetNotDue

/-- One octet, in the direction of the operation that is running; with none running the engine has no step (R193). -/
def byDirection (consume emit : State → Result) (s : State) : Result :=
  match s.phase with
  | .run => if isDecode s.op then consume s else emit s
  | .idle => .refused .noOperationRunning
  | .done => .refused .noOperationRunning

/-- `CONT`. -/
def execCont (g : Group) (s : State) : Result := byDirection (consumeCont g) (emitCont g) s

/-- `LAST`. -/
def execLast (g : Group) (s : State) : Result := byDirection (consumeLast g) (emitLast g) s

end Sys2Proof.Machine
end

