-- ==== Sys2Proof/Machine/Signed.lean ====
section
/-! DEFINITION. The commands of the signed codec (42_signed_varint.md). -/

namespace Sys2Proof.Machine

/-- `ENCS`: `START_ENC` with code 0b10, so that the magnitude is `ZZ(value)` (R162, R191). -/
def execEncs (s : State) : Result := whenReady s (startEncode 0b10 s)

/-- `DECS`: `START_DEC` with code 0b11, so that the result is `UNZZ` of the magnitude (R163, R192). -/
def execDecs (s : State) : Result := whenReady s (startDecode 0b11 s)

end Sys2Proof.Machine
end

