-- ==== Sys2Proof/Machine/Unsigned.lean ====
section
/-! DEFINITION. The commands of the unsigned codec (41_unsigned_varint.md). -/

namespace Sys2Proof.Machine

/-- `ENCU`: `START_ENC` with code 0b00; the engine then emits `GENC(value)` octet by octet (R140, R191). -/
def execEncu (s : State) : Result := whenReady s (startEncode 0b00 s)

/-- `DECU`: `START_DEC` with code 0b01; the engine then consumes `IBUF` octet by octet (R141, R192). -/
def execDecu (s : State) : Result := whenReady s (startDecode 0b01 s)

end Sys2Proof.Machine
end

