-- ==== Sys2Proof/Machine/Dispatch.lean ====
section
/-! DEFINITION. One arm per instruction. -/

namespace Sys2Proof.Machine

def exec (i : Instr) (s : State) : Host.Outcome State Fault Refusal :=
  match i with
  | .encu => Sys2Proof.Machine.execEncu s
  | .decu => Sys2Proof.Machine.execDecu s
  | .encs => Sys2Proof.Machine.execEncs s
  | .decs => Sys2Proof.Machine.execDecs s
  | .cont g => Sys2Proof.Machine.execCont g s
  | .last g => Sys2Proof.Machine.execLast g s

end Sys2Proof.Machine
end

