-- ==== Sys2Proof/Machine/HostPort.lean ====
section
/-! DEFINITION. The host's moves (43_sequencing_and_host.md R198), and which agent moves next. -/

namespace Sys2Proof.Machine

/-! ### Driving the operand inputs -/

/-- The value operand may change at any time; a change after a start is not seen until the next (20_memory.md R65). -/
def driveValue (v : Word) (s : State) : Result := .next { s with value := v }

/-- The input buffer must stay stable while `PHASE = RUN` (R63; U8) and holds at most `ILEN_MAX` octets (R52). -/
def presentInput (octets : List Byte) (s : State) : Result :=
  match s.phase with
  | .run => .refused .inputChangedWhileRunning
  | .idle => if inputWellFormed octets then .next { s with ibuf := octets } else .refused .inputTooLong
  | .done => if inputWellFormed octets then .next { s with ibuf := octets } else .refused .inputTooLong

/-! ### Reading -/

/-- The host may read `VAL` and `CNT` and rely on them: at `DONE`, and after a decode only if `ERR = 0` (10_state.md
R35). -/
def resultSpecified (s : State) : Bool := decide (s.phase = .done) && !(isDecode s.op && s.err)

/-- `OBUF[i]` belongs to the result: at `DONE` of an encode, `i < CNT` (R35, 20_memory.md R53). -/
def octetSpecified (s : State) (i : Nat) : Bool :=
  decide (s.phase = .done) && !isDecode s.op && decide (i < s.cnt.toNat)

/-- Bit 1 of `STATUS` as the host sees it: unspecified after an error (R27, U3; log entry 7), else `OVF` (R28). -/
def statusForHost (s : State) : BitVec 4 :=
  if endedInError s then statusBits s.phase (Config.freeBit s.draws) s.err else statusView s

/-- `STATUS` may be read in any phase and reading it changes nothing of the block (R28, R35). -/
def hostReadStatus (s : State) : Result :=
  .next (deliver (.status (statusForHost s)) (if endedInError s then drawn s else s))

/-- A read of a result register: no such move in `RUN` (70_reset_and_hazards.md R287, U6); elsewhere its content, or a
free value where the spec leaves it unspecified to the host (U3, U4; log entry 7). -/
def hostReadWord (wrap : Word → HostValue) (content : Word) (s : State) : Result :=
  match s.phase with
  | .run => .refused .readWhileRunning
  | .idle => .next (deliver (wrap (Config.freeWord s.draws)) (drawn s))
  | .done =>
    if resultSpecified s then .next (deliver (wrap content) s)
    else .next (deliver (wrap (Config.freeWord s.draws)) (drawn s))

/-- Reading `VAL` (R35). -/
def hostReadVal (s : State) : Result := hostReadWord .val s.val s

/-- Reading `CNT` (R35). -/
def hostReadCnt (s : State) : Result := hostReadWord .cnt s.cnt s

/-- Reading `OBUF[i]`: no such move in `RUN` (U6), no such index above 9 (20_memory.md R53), a free octet where the entry
is unspecified to the host (U5). -/
def hostReadObuf (i : Nat) (s : State) : Result :=
  match s.phase with
  | .run => .refused .readWhileRunning
  | .idle =>
    if i < Config.maxEncLen then .next (deliver (.octet (Config.freeOctet s.draws)) (drawn s)) else .fault .obufIndex
  | .done =>
    if i < Config.maxEncLen then
      if octetSpecified s i then .next (deliver (.octet (obufRead s.obuf i)) s)
      else .next (deliver (.octet (Config.freeOctet s.draws)) (drawn s))
    else .fault .obufIndex

/-! ### Whose move it is -/

/-- What one step does: run an instruction in a state, or answer an outcome that no instruction is behind. -/
abbrev Turn := (Instr × State) ⊕ Result

/-- The engine's turn (R193): the octet an encode emits, the octet a decode reads, or `ParseError` when the input is
exhausted, which is tested before the read (R117, R258). Without a running operation the engine has no step, and the
block stays as it is (log entry 3). -/
def engineTurn (s : State) : Turn :=
  match s.phase with
  | .idle => .inr (.next s)
  | .done => .inr (.next s)
  | .run =>
    if isDecode s.op then
      if s.cnt = ilen s then .inr (.next (raiseParseError s))
      else
        match ibufRead s (inputIndex s) with
        | some b => .inl (decodeOctet b, s)
        | none => .inr (.fault .ibufIndex)
    else .inl (octetDue s, s)

/-- The next move: the oldest of the host's, or the engine's when the host has none (log entry 2). A host that waits
keeps waiting while `PHASE = RUN`, and the engine takes its steps meanwhile (R195, R198). -/
def nextTurn (s : State) : Turn :=
  match s.moves with
  | [] => engineTurn s
  | .tick :: rest => engineTurn { s with moves := rest }
  | .waitDone :: rest =>
    match s.phase with
    | .run => engineTurn s
    | .idle => .inr (.next { s with moves := rest })
    | .done => .inr (.next { s with moves := rest })
  | .start code :: rest => .inl (decodeCommand code, { s with moves := rest })
  | .setValue v :: rest => .inr (driveValue v { s with moves := rest })
  | .setInput octets :: rest => .inr (presentInput octets { s with moves := rest })
  | .readStatus :: rest => .inr (hostReadStatus { s with moves := rest })
  | .readVal :: rest => .inr (hostReadVal { s with moves := rest })
  | .readCnt :: rest => .inr (hostReadCnt { s with moves := rest })
  | .readObuf i :: rest => .inr (hostReadObuf i { s with moves := rest })
  | .reset :: rest => .inr (.next (resetBlock { s with moves := rest }))

/-! ### Placing an instruction where the next step takes it -/

/-- The host's next move is to start this operation. -/
def placeCommand (code : Code) (s : State) : State := { s with moves := .start code :: s.moves }

/-- A decode is running, the engine has the next turn, and the octet it reads is this one (log entry 4). -/
def placeOctet (b : Byte) (s : State) : State :=
  { s with op := s.op ||| 0b01, phase := .run, cnt := 0, ibuf := b :: s.ibuf.tail, moves := .tick :: s.moves }

end Sys2Proof.Machine
end

