-- ==== Sys2Proof/Machine/Step.lean ====
section
/-! DEFINITION. One step of the reference machine, and placing an instruction for it. -/

namespace Sys2Proof.Machine

/-- One step: the agent whose move it is makes it (00_scope.md R12 (b); 43_sequencing_and_host.md R190, R193). -/
def step (s : State) : Host.Outcome State Fault Refusal :=
  match nextTurn s with
  | .inl (i, t) => exec i t
  | .inr r => r

/-- The state with a table word placed where the next step takes its instruction: a command as the host's next move, an
octet as the one a running decode reads next (log entry 4). -/
def State.withFetchWord (s : State) (nbits w : Nat) : State :=
  match decodeTableWord nbits w with
  | none => s
  | some i =>
    match i.format with
    | .cmd2 => placeCommand (BitVec.ofNat 2 w) s
    | .wireOctet => placeOctet (BitVec.ofNat 8 w) s

end Sys2Proof.Machine
end

