-- ==== Sys2Proof/Safety.lean ====
section
/-! DEFINITION. What counts as a safe state and a dutiful host, in the terms the statements use. -/

namespace Sys2Proof.Machine

/-! ### The invariant -/

/-- The magnitude of the encode whose operand `VAL` holds (43_sequencing_and_host.md R191). -/
def encodeMagnitude (s : State) : Word := operandMagnitude s.op s.val

/-- The octets before `CNT` in `OBUF` are those of the encoding (40_group_codec.md R118 (a)). -/
def outputSoFar (s : State) : Prop :=
  ∀ i, i < s.cnt.toNat → (genc (encodeMagnitude s))[i]? = some (obufRead s.obuf i)

/-- An encode in progress: the invariant that proves R118 (a). -/
def encodeRunning (s : State) : Prop :=
  s.err = false ∧ s.ovf = false ∧ s.cnt.toNat < (genc (encodeMagnitude s)).length ∧
    s.mag = shr64 (encodeMagnitude s) (Config.groupW * s.cnt.toNat) ∧ outputSoFar s

/-- A finished encode: `CNT` is the length and `OBUF` holds the encoding (R194). -/
def encodeDone (s : State) : Prop :=
  s.err = false ∧ s.ovf = false ∧ s.cnt.toNat = (genc (encodeMagnitude s)).length ∧ outputSoFar s

/-- The octets a running decode has consumed. -/
def consumedOctets (s : State) : List Byte := s.ibuf.take s.cnt.toNat

/-- A decode in progress: the invariant that proves R118 (b). -/
def decodeRunning (s : State) : Prop :=
  s.err = false ∧ s.cnt.toNat ≤ s.ibuf.length ∧ (∀ b ∈ consumedOctets s, b.getLsbD 7 = true) ∧
    s.mag = BitVec.ofNat 64 (rawMagnitude (consumedOctets s)) ∧
    s.ovf = decide (2 ^ 64 ≤ rawMagnitude (consumedOctets s))

/-- A finished decode. The host may have changed `IBUF` since, so nothing is said of it. -/
def decodeDone (s : State) : Prop :=
  s.err = false → 1 ≤ s.cnt.toNat ∧ s.val = decodedValue s.op s.mag

/-- The invariant every step keeps. -/
def Inv (s : State) : Prop :=
  Memory.wf s.obuf = true ∧ inputWellFormed s.ibuf = true ∧
    match s.phase with
    | .idle => s.err = false ∧ s.ovf = false
    | .run => if isDecode s.op then decodeRunning s else encodeRunning s
    | .done => if isDecode s.op then decodeDone s else encodeDone s

/-! ### Whose move it is -/

/-- In `s` the host lets the engine move, and the engine moves in `t`: the host plans nothing, gives one tick, or waits. -/
def engineToMove (s t : State) : Prop :=
  (s.moves = [] ∧ t = s) ∨ (∃ rest, s.moves = .tick :: rest ∧ t = { s with moves := rest }) ∨
    (∃ rest, s.moves = .waitDone :: rest ∧ t = s)

/-- The host's next move starts an operation. -/
def startsNext (s : State) : Prop := ∃ code rest, s.moves = .start code :: rest

/-- The host's next move is reset. -/
def resetsNext (s : State) : Prop := ∃ rest, s.moves = .reset :: rest

/-! ### A dutiful host -/

/-- The plan keeps every duty of 43_sequencing_and_host.md R198, whether an operation may be running at its head or not:
no start, no change of input and no read of a result between a start and the wait for its end, no input that is too
long, and no index past `OBUF`. -/
def keepsDuties (mayRun : Bool) (plan : List HostMove) : Bool :=
  match plan with
  | [] => true
  | .start _ :: rest => !mayRun && keepsDuties true rest
  | .setValue _ :: rest => keepsDuties mayRun rest
  | .setInput octets :: rest => !mayRun && inputWellFormed octets && keepsDuties mayRun rest
  | .readStatus :: rest => keepsDuties mayRun rest
  | .readVal :: rest => !mayRun && keepsDuties mayRun rest
  | .readCnt :: rest => !mayRun && keepsDuties mayRun rest
  | .readObuf i :: rest => !mayRun && decide (i < Config.maxEncLen) && keepsDuties mayRun rest
  | .reset :: rest => keepsDuties false rest
  | .tick :: rest => keepsDuties mayRun rest
  | .waitDone :: rest => keepsDuties false rest

/-- However long it runs, the machine never stops. -/
def neverStops (s : State) : Prop := ∀ n, ∃ t, Host.Core.run Sys2Proof.core n s = .next t

end Sys2Proof.Machine
end

