-- ==== Sys2Proof/Certificates/Slice0/Obligations.lean ====
section
/-! DEFINITION. The statements for the provers. -/

open Sys2Proof Sys2Proof.Machine

/-! ### Encoding -/

/-- Words written out from the spec's encodings decode to the instructions they stand for (30_encoding.md sections 1, 2;
a command code carried in one byte is log entry 5). -/
def Obligations.WordsOfTheTableDecode : Prop :=
  decode .cmd2 [0b00000000] = .ok (.encu, []) ∧ decode .cmd2 [0b00000001] = .ok (.decu, []) ∧
  decode .cmd2 [0b00000010] = .ok (.encs, []) ∧ decode .cmd2 [0b00000011] = .ok (.decs, []) ∧
  decode .wireOctet [0b10101100, 0b00000010] = .ok (.cont 0b0101100, [0b00000010]) ∧
  decode .wireOctet [0b00000010] = .ok (.last 0b0000010, []) ∧
  decode .wireOctet [0b11111111] = .ok (.cont 0b1111111, []) ∧
  decode .wireOctet [0b01111111] = .ok (.last 0b1111111, [])

/-- Decode and encode agree in both directions, for every instruction, whatever bytes follow. That a command code is
carried in one byte is the model's choice (log entry 5). -/
def Obligations.DecodeAndEncodeAgree : Prop :=
  (∀ (i : Instr) (rest : List Byte), i.wellFormed = true → decode i.format (encode i ++ rest) = .ok (i, rest)) ∧
  (∀ (f : Format) (bytes rest : List Byte) (i : Instr), decode f bytes = .ok (i, rest) →
    i.format = f ∧ bytes = encode i ++ rest)

/-- What is no instruction: no byte at all, or (log entry 5) a command byte above 3. Every octet is legal. -/
def Obligations.DecodeRefusesOnlyTheseBytes : Prop :=
  ∀ (f : Format) (bytes : List Byte) (e : DecodeError), decode f bytes = .error e ↔
    (bytes = [] ∧ e = .noByte) ∨
    (f = .cmd2 ∧ (∃ b rest, bytes = b :: rest ∧ 4 ≤ b.toNat) ∧ e = .notACommandCode)

/-! ### Bit-level primitives -/

/-- `GRP(m) = m mod 128` (40_group_codec.md R110). -/
def Obligations.GrpIsTheLowSevenBits : Prop :=
  ∀ m : Word, (grp m).toNat = m.toNat % 128

/-- `TAG` and `UNTAG` as numbers, and as inverses (R111, R112). -/
def Obligations.TagAndUntagAreInverse : Prop :=
  (∀ (c : Bool) (g : Group), (tag c g).toNat = 128 * c.toNat + g.toNat ∧ untag (tag c g) = (c, g)) ∧
  (∀ b : Byte, (untag b).1.toNat = b.toNat / 128 ∧ (untag b).2.toNat = b.toNat % 128 ∧
    tag (untag b).1 (untag b).2 = b)

/-- `PACK` by group number: whole up to 8, bit 63 alone at 9, nothing from 10 on; `lost` tells a discarded 1 bit. -/
def Obligations.PackByGroupNumber : Prop :=
  ∀ (acc : Word) (g : Group) (i : Nat),
    (i ≤ 8 → pack acc g i = (acc ||| (g.setWidth 64 <<< (7 * i)), false) ∧ g.toNat * 2 ^ (7 * i) < 2 ^ 63) ∧
    (i = 9 → pack acc g i = (acc ||| (if g.getLsbD 0 then 0x8000000000000000 else 0), decide (2 ≤ g.toNat))) ∧
    (10 ≤ i → pack acc g i = (acc, decide (g ≠ 0)))

/-- Where the accumulator has no 1 bit at or above the group's offset, the OR of `PACK` is an addition modulo `2^64`. -/
def Obligations.PackIsAnAddition : Prop :=
  ∀ (acc : Word) (g : Group) (i : Nat), acc.toNat < 2 ^ (7 * i) →
    (pack acc g i).1.toNat = (acc.toNat + g.toNat * 2 ^ (7 * i)) % 2 ^ 64 ∧
    ((pack acc g i).2 = true ↔ 2 ^ 64 ≤ acc.toNat + g.toNat * 2 ^ (7 * i))

/-- The shifts of `ZZ` bit by bit and as numbers (44_arithmetic_laws_and_invariants.md R221, R222). -/
def Obligations.ZigZagShiftsActAsStated : Prop :=
  ∀ p : Word,
    (∀ i, i < 64 → (shl64 p 1).getLsbD i = (decide (1 ≤ i) && p.getLsbD (i - 1))) ∧
    (shl64 p 1).toNat = 2 * p.toNat % 2 ^ 64 ∧
    (∀ i, i < 64 → (sar64 p 63).getLsbD i = p.getLsbD 63) ∧
    sar64 p 63 = if 0 ≤ p.toInt then 0 else 0xFFFFFFFFFFFFFFFF

/-- The logical right shifts, and the loop test of `ENC_STEP`, are those of an unsigned number (R224, R225). -/
def Obligations.MagnitudeOperatorsAreUnsigned : Prop :=
  ∀ m : Word, (shr64 m 7).toNat = m.toNat / 128 ∧ (shr64 m 1).toNat = m.toNat / 2 ∧
    (continues m = true ↔ 127 < m.toNat) ∧ (continues m = true ↔ m.extractLsb' 7 57 ≠ 0)

/-! ### Zig-zag -/

/-- `ZZ` as a formula, as numbers, and as a bijection (42_signed_varint.md R160). -/
def Obligations.ZigZagClosedForm : Prop :=
  (∀ n : Word, zz n = shl64 n 1 ^^^ sar64 n 63 ∧
    (0 ≤ n.toInt → ((zz n).toNat : Int) = 2 * n.toInt) ∧
    (n.toInt < 0 → ((zz n).toNat : Int) = -2 * n.toInt - 1)) ∧
  Function.Bijective zz

/-- `UNZZ` on the integers, and both round trips (R161). -/
def Obligations.UnZigZagInvertsZigZag : Prop :=
  (∀ m : Word, (m.toNat % 2 = 0 → (unzz m).toInt = (m.toNat / 2 : Nat)) ∧
    (m.toNat % 2 = 1 → (unzz m).toInt = -((m.toNat / 2 : Nat) + 1 : Int))) ∧
  (∀ n : Word, unzz (zz n) = n) ∧ (∀ m : Word, zz (unzz m) = m)

/-- The bit-level form of `UNZZ`: shift right by 1, XOR with the replicated bit 0. -/
def Obligations.UnZigZagBitForm : Prop :=
  ∀ m : Word, unzz m = shr64 m 1 ^^^ (0 - (m &&& 1))

/-- A smaller absolute value has a smaller zig-zag image and never needs more octets. -/
def Obligations.ZigZagKeepsSmallValuesSmall : Prop :=
  ∀ a b : Word, a.toInt.natAbs < b.toInt.natAbs →
    (zz a).toNat < (zz b).toNat ∧ (encodeSigned a).length ≤ (encodeSigned b).length

/-! ### The group codec as functions -/

/-- `GENC` satisfies the spec's recursion (40_group_codec.md R114). -/
def Obligations.GroupEncoderRecursion : Prop :=
  ∀ m : Word, 1 ≤ (genc m).length ∧ (genc m).length ≤ 10 ∧
    genc m = if 127 < m.toNat then tag true (grp m) :: genc (BitVec.ofNat 64 (m.toNat / 128)) else [tag false (grp m)]

/-- The length of an encoding is the number of 7-bit groups its bit length takes, 1 for zero; no group is redundant
(44_arithmetic_laws_and_invariants.md R232). -/
def Obligations.EncodingIsMinimal : Prop :=
  (∀ m : Word, (genc m).length = (if m = 0 then 1 else (m.toNat.size + 6) / 7) ∧
    1 ≤ (genc m).length ∧ (genc m).length ≤ 10 ∧
    (m ≠ 0 → ∀ b, (genc m).getLast? = some b → b ≠ 0)) ∧
  (∀ n : Word, encodeUnsigned n = genc n ∧ (encodeSigned n).length = (genc (zz n)).length)

/-- The length table of encodings by magnitude, and the tenth octet. -/
def Obligations.EncodingLengthTable : Prop :=
  ∀ m : Word,
    (∀ k, 1 ≤ k → k ≤ 10 →
      ((genc m).length = k ↔ (k = 1 ∨ 2 ^ (7 * (k - 1)) ≤ m.toNat) ∧ m.toNat < 2 ^ (7 * k))) ∧
    ((genc m).length = 10 → (genc m).getLast? = some 0x01)

/-- The length table of `ENCS` by value. -/
def Obligations.SignedLengthTable : Prop :=
  ∀ n : Word, ∀ k, 1 ≤ k → k ≤ 10 →
    ((encodeSigned n).length ≤ k ↔ k = 10 ∨ (-(2 ^ (7 * k - 1)) ≤ n.toInt ∧ n.toInt ≤ 2 ^ (7 * k - 1) - 1))

/-- `GDEC` by the positions of the flags and the sum of the weighted groups (40_group_codec.md R116). -/
def Obligations.GroupDecoderByPosition : Prop :=
  (∀ s : List Byte, gdec s = .error .malformedOrTruncated ↔ ∀ b ∈ s, b.getLsbD 7 = true) ∧
  (∀ (s : List Byte) (k : Nat) (hk : k < s.length), s[k].getLsbD 7 = false →
    (∀ (j : Nat) (hj : j < k), s[j].getLsbD 7 = true) →
    gdec s = .ok
      { mag := BitVec.ofNat 64 (∑ i ∈ Finset.range (k + 1), (s[i]?.getD 0).toNat % 128 * 2 ^ (7 * i))
        consumed := k + 1
        ovf := decide (2 ^ 64 ≤ ∑ i ∈ Finset.range (k + 1), (s[i]?.getD 0).toNat % 128 * 2 ^ (7 * i)) })

/-- Both decodes answer on every input, and fail exactly on those with no octet below 0x80; an encode never fails
(44_arithmetic_laws_and_invariants.md R238). -/
def Obligations.OperationsAreTotal : Prop :=
  (∀ (v : Word) (s : List Byte), ∃ e, operationResult 0b00 v s = .octets e) ∧
  (∀ (v : Word) (s : List Byte), ∃ e, operationResult 0b10 v s = .octets e) ∧
  (∀ (v : Word) (s : List Byte), (operationResult 0b01 v s = .err .malformedOrTruncated ↔ ¬ ∃ b ∈ s, b.toNat < 0x80) ∧
    ((∃ b ∈ s, b.toNat < 0x80) → ∃ x c o, operationResult 0b01 v s = .okUnsigned x c o)) ∧
  (∀ (v : Word) (s : List Byte), (operationResult 0b11 v s = .err .malformedOrTruncated ↔ ¬ ∃ b ∈ s, b.toNat < 0x80) ∧
    ((∃ b ∈ s, b.toNat < 0x80) → ∃ x c o, operationResult 0b11 v s = .okSigned x c o))

/-- The corners of the overflow rule: the value wraps modulo `2^64`, the shift amount does not. -/
def Obligations.OverflowWrapsTheValue : Prop :=
  decodeUnsigned [0xFF, 0xFF, 0xFF, 0xFF, 0xFF, 0xFF, 0xFF, 0xFF, 0xFF, 0x02] = .okUnsigned (2 ^ 63 - 1) 10 true ∧
  decodeSigned [0xFF, 0xFF, 0xFF, 0xFF, 0xFF, 0xFF, 0xFF, 0xFF, 0xFF, 0x02] = .okSigned (-(2 ^ 62)) 10 true ∧
  decodeUnsigned [0xFF, 0xFF, 0xFF, 0xFF, 0xFF, 0xFF, 0xFF, 0xFF, 0xFF, 0x01] = .okUnsigned (2 ^ 64 - 1) 10 false ∧
  decodeUnsigned [0x80, 0x80, 0x80, 0x80, 0x80, 0x80, 0x80, 0x80, 0x80, 0x80, 0x01] = .okUnsigned 0 11 true ∧
  decodeUnsigned [0x80, 0x80, 0x80, 0x80, 0x80, 0x80, 0x80, 0x80, 0x80, 0x80, 0x00] = .okUnsigned 0 11 false

/-- `ovf` is 1 exactly when a consumed octet loses a 1 bit: a tenth group of 2 or more, or a later group that is not
zero. -/
def Obligations.OverflowOnlyFromHighGroups : Prop :=
  ∀ (s : List Byte) (d : Decoded), gdec s = .ok d →
    (d.ovf = true ↔ ∃ (i : Nat) (b : Byte), i < d.consumed ∧ s[i]? = some b ∧
      ((i = 9 ∧ 2 ≤ b.toNat % 128) ∨ (10 ≤ i ∧ b.toNat % 128 ≠ 0)))

/-! ### The codec as a whole -/

/-- Decoding an unsigned encoding gives the value, its length and no overflow, whatever octets follow (R230). -/
def Obligations.RoundTripUnsigned : Prop :=
  ∀ (n : Word) (t : List Byte),
    decodeUnsigned (encodeUnsigned n ++ t) = .okUnsigned n.toNat (encodeUnsigned n).length false

/-- Decoding a signed encoding gives the value, its length and no overflow, whatever octets follow (R231). -/
def Obligations.RoundTripSigned : Prop :=
  ∀ (n : Word) (t : List Byte),
    decodeSigned (encodeSigned n ++ t) = .okSigned n.toInt (encodeSigned n).length false

/-- A cut encoding fails to decode, and no encoding begins another (R234). -/
def Obligations.TruncationFails : Prop :=
  (∀ (m : Word) (j : Nat), j < (genc m).length → gdec ((genc m).take j) = .error .malformedOrTruncated) ∧
  (∀ (n : Word) (j : Nat), j < (encodeUnsigned n).length →
    decodeUnsigned ((encodeUnsigned n).take j) = .err .malformedOrTruncated ∧
    decodeSigned ((encodeUnsigned n).take j) = .err .malformedOrTruncated) ∧
  (∀ (n : Word) (j : Nat), j < (encodeSigned n).length →
    decodeUnsigned ((encodeSigned n).take j) = .err .malformedOrTruncated ∧
    decodeSigned ((encodeSigned n).take j) = .err .malformedOrTruncated) ∧
  (∀ (a b : Word) (t : List Byte), genc a ++ t = genc b → t = [] ∧ a = b)

/-- Octets after a value do not matter, and a buffer of encodings in a row parses back to its values (R235). -/
def Obligations.ConsumedLengthIsCorrect : Prop :=
  (∀ s t : List Byte, terminatorIndex s = some (s.length - 1) → gdec (s ++ t) = gdec s) ∧
  (∀ (vs : List (Bool × Word)) (t : List Byte),
    parseValues (vs.map Prod.fst)
      ((vs.map fun p => if p.1 then encodeSigned p.2 else encodeUnsigned p.2).flatten ++ t) =
        .ok (vs.map Prod.snd))

/-- A decode that loses nothing consumed at least as many octets as the encoding of its magnitude has, and just as many
exactly when it read that encoding. -/
def Obligations.CanonicalFormIsShortest : Prop :=
  ∀ (s : List Byte) (d : Decoded), gdec s = .ok d → d.ovf = false →
    (genc d.mag).length ≤ d.consumed ∧
    ((genc d.mag).length = d.consumed ↔ s.take d.consumed = genc d.mag)

/-! ### The commands -/

/-- `START_ENC`: what `ENCU` and `ENCS` write, in every state with no operation running
(43_sequencing_and_host.md R191). -/
def Obligations.StartEncodeWrites : Prop :=
  ∀ s : State, s.phase ≠ .run →
    exec .encu s = .next { s with
      op := 0b00, val := s.value, mag := s.value, cnt := 0, err := false, ovf := false, phase := .run } ∧
    exec .encs s = .next { s with
      op := 0b10, val := s.value, mag := shl64 s.value 1 ^^^ sar64 s.value 63, cnt := 0, err := false, ovf := false,
      phase := .run }

/-- `START_DEC`: what `DECU` and `DECS` write, in every state with no operation running (R192). -/
def Obligations.StartDecodeWrites : Prop :=
  ∀ s : State, s.phase ≠ .run →
    exec .decu s = .next { s with op := 0b01, mag := 0, cnt := 0, err := false, ovf := false, phase := .run } ∧
    exec .decs s = .next { s with op := 0b11, mag := 0, cnt := 0, err := false, ovf := false, phase := .run }

/-- While an operation runs no command is accepted (log entry 9). -/
def Obligations.StartsAreRefusedWhileRunning : Prop :=
  ∀ s : State, s.phase = .run → ∀ code : Code, exec (decodeCommand code) s = .refused .startWhileRunning

/-- The frame of the four commands: the output buffer, the host's side and (for a decode) `VAL` are left alone. -/
def Obligations.CommandFrame : Prop :=
  ∀ (s t : State) (code : Code), exec (decodeCommand code) s = .next t →
    (∀ i, obufRead t.obuf i = obufRead s.obuf i) ∧ t.value = s.value ∧ t.ibuf = s.ibuf ∧ t.moves = s.moves ∧
    t.got = s.got ∧ t.draws = s.draws ∧ (isDecode code = true → t.val = s.val)

/-! ### The octets -/

/-- `CONT` and `LAST` in an encode: the octet that is due goes to `OBUF[CNT]`. That the octet itself is what `exec` runs is
the model's choice (log entry 6). -/
def Obligations.EncodeEmitsTheOctetDue : Prop :=
  ∀ s : State, s.phase = .run → isDecode s.op = false → s.cnt.toNat ≤ 9 →
    (127 < s.mag.toNat → exec (.cont (grp s.mag)) s = .next { s with
      obuf := obufStore s.obuf (outputIndex s) (tag true (grp s.mag)), mag := shr64 s.mag 7, cnt := s.cnt + 1 }) ∧
    (s.mag.toNat ≤ 127 → exec (.last (grp s.mag)) s = .next { s with
      obuf := obufStore s.obuf (outputIndex s) (tag false (grp s.mag)), cnt := s.cnt + 1, phase := .done })

/-- `CONT` and `LAST` in a decode: the group is packed; `LAST` also gives the value and ends the operation. That the octet
itself is what `exec` runs is the model's choice (log entry 6). -/
def Obligations.DecodeConsumesTheOctet : Prop :=
  ∀ (s : State) (g : Group), s.phase = .run → isDecode s.op = true →
    exec (.cont g) s = .next { s with
      mag := (pack s.mag g s.cnt.toNat).1, ovf := s.ovf || (pack s.mag g s.cnt.toNat).2, cnt := s.cnt + 1 } ∧
    exec (.last g) s = .next { s with
      mag := (pack s.mag g s.cnt.toNat).1, ovf := s.ovf || (pack s.mag g s.cnt.toNat).2, cnt := s.cnt + 1,
      val := if isSigned s.op then unzz (pack s.mag g s.cnt.toNat).1 else (pack s.mag g s.cnt.toNat).1,
      phase := .done }

/-- Cases in which `CONT` and `LAST` stop: with no operation running and when an encode owes another octet (both log entry
6), and past the end of `OBUF` (log entry 10). Where they answer a next state is said by `EncodeEmitsTheOctetDue` and
`DecodeConsumesTheOctet`. -/
def Obligations.OctetsStopHere : Prop :=
  ∀ (s : State) (g : Group),
    (s.phase ≠ .run → exec (.cont g) s = .refused .noOperationRunning ∧
      exec (.last g) s = .refused .noOperationRunning) ∧
    (s.phase = .run → isDecode s.op = false →
      (¬ (127 < s.mag.toNat ∧ g = grp s.mag) → exec (.cont g) s = .refused .octetNotDue) ∧
      (¬ (s.mag.toNat ≤ 127 ∧ g = grp s.mag) → exec (.last g) s = .refused .octetNotDue) ∧
      (127 < s.mag.toNat → g = grp s.mag → 9 < s.cnt.toNat → exec (.cont g) s = .fault .obufIndex) ∧
      (s.mag.toNat ≤ 127 → g = grp s.mag → 9 < s.cnt.toNat → exec (.last g) s = .fault .obufIndex))

/-- The frame of the octets of an encode: one octet of `OBUF`, at `CNT`; no flag, no operand, nothing of the host's. -/
def Obligations.EmittedOctetFrame : Prop :=
  ∀ (s t : State) (g : Group), isDecode s.op = false →
    exec (.cont g) s = .next t ∨ exec (.last g) s = .next t →
    (∀ i, i ≠ outputIndex s → obufRead t.obuf i = obufRead s.obuf i) ∧
    t.op = s.op ∧ t.val = s.val ∧ t.err = s.err ∧ t.ovf = s.ovf ∧ t.value = s.value ∧ t.ibuf = s.ibuf ∧
    t.moves = s.moves ∧ t.got = s.got ∧ t.draws = s.draws ∧
    (exec (.cont g) s = .next t → t.phase = s.phase) ∧ (exec (.last g) s = .next t → t.mag = s.mag)

/-- The frame of the octets of a decode: all of `OBUF`, `OP`, `ERR` and the host's side are left alone, and `CONT` leaves
`VAL` and `PHASE` too. -/
def Obligations.ConsumedOctetFrame : Prop :=
  ∀ (s t : State) (g : Group), isDecode s.op = true →
    exec (.cont g) s = .next t ∨ exec (.last g) s = .next t →
    (∀ i, obufRead t.obuf i = obufRead s.obuf i) ∧
    t.op = s.op ∧ t.err = s.err ∧ t.value = s.value ∧ t.ibuf = s.ibuf ∧ t.moves = s.moves ∧ t.got = s.got ∧
    t.draws = s.draws ∧ (exec (.cont g) s = .next t → t.val = s.val ∧ t.phase = s.phase)

/-! ### One step -/

/-- A step runs the decoded instruction: the command the host starts, the octet a running decode reads, the octet a
running encode owes. Two things are the model's choice: that the host's moves come from a list (log entry 2), and that an
octet read or owed is run as an instruction (log entry 6). -/
def Obligations.StepRunsTheDecodedInstruction : Prop :=
  (∀ (s : State) (code : Code) (rest : List HostMove), s.moves = .start code :: rest →
    step s = exec (decodeCommand code) { s with moves := rest }) ∧
  (∀ (s t : State) (b : Byte), engineToMove s t → s.phase = .run → isDecode s.op = true → s.cnt ≠ ilen s →
    s.ibuf[inputIndex s]? = some b → step s = exec (decodeOctet b) t) ∧
  (∀ s t : State, engineToMove s t → s.phase = .run → isDecode s.op = false → step s = exec (octetDue s) t)

/-- `ENC_STEP`, as one step of the machine (40_group_codec.md R115); where the invariant holds, the index is inside `OBUF`
when a step begins and both flags are 0 at the end. -/
def Obligations.EncodeStep : Prop :=
  (∀ s t : State, engineToMove s t → s.phase = .run → isDecode s.op = false → s.cnt.toNat ≤ 9 →
    step s = .next
      (if 127 < s.mag.toNat then
        { t with obuf := obufStore s.obuf s.cnt.toNat (tag true (grp s.mag)), mag := shr64 s.mag 7, cnt := s.cnt + 1 }
      else
        { t with obuf := obufStore s.obuf s.cnt.toNat (tag false (grp s.mag)), cnt := s.cnt + 1, phase := .done })) ∧
  (∀ s : State, Inv s → s.phase = .run → isDecode s.op = false → s.cnt.toNat ≤ 9) ∧
  (∀ s : State, Inv s → s.phase = .done → isDecode s.op = false → s.err = false ∧ s.ovf = false)

/-- `DEC_STEP`, as one step of the machine: `ParseError` when the input is exhausted, else the octet at `CNT` (R117). -/
def Obligations.DecodeStep : Prop :=
  ∀ s t : State, engineToMove s t → s.phase = .run → isDecode s.op = true →
    (s.cnt = ilen s → step s = .next { t with err := true, phase := .done }) ∧
    (∀ b, s.cnt ≠ ilen s → s.ibuf[s.cnt.toNat]? = some b →
      step s = .next
        (if (untag b).1 then
          { t with
            mag := (pack s.mag (untag b).2 s.cnt.toNat).1
            ovf := s.ovf || (pack s.mag (untag b).2 s.cnt.toNat).2
            cnt := s.cnt + 1 }
        else
          { t with
            mag := (pack s.mag (untag b).2 s.cnt.toNat).1
            ovf := s.ovf || (pack s.mag (untag b).2 s.cnt.toNat).2
            cnt := s.cnt + 1
            val := if isSigned s.op then unzz (pack s.mag (untag b).2 s.cnt.toNat).1
              else (pack s.mag (untag b).2 s.cnt.toNat).1
            phase := .done }))

/-- The engine faults exactly where it would use an index the spec says does not exist (log entry 10): a decode step with
`CNT` past `ILEN`, an encode step with `CNT` past `OBUF`. The invariant rules both out. -/
def Obligations.EngineFaultsOnlyAtAbsentIndices : Prop :=
  (∀ s t : State, engineToMove s t → s.phase = .run →
    (isDecode s.op = true → (step s = .fault .ibufIndex ↔ s.cnt ≠ ilen s ∧ s.ibuf.length ≤ s.cnt.toNat)) ∧
    (isDecode s.op = false → (step s = .fault .obufIndex ↔ 9 < s.cnt.toNat))) ∧
  (∀ s t : State, engineToMove s t → Inv s → s.phase = .run → ∃ u, step s = .next u)

/-- The transitions of `PHASE`, what makes each, and its codes (10_state.md R25). -/
def Obligations.PhaseTransitions : Prop :=
  (phaseCode .idle = 0b00 ∧ phaseCode .run = 0b01 ∧ phaseCode .done = 0b10 ∧ ∀ p, phaseCode p ≠ 0b11) ∧
  State.reset.phase = .idle ∧
  ∀ s t : State, step s = .next t →
    (s.phase = .idle → t.phase = .idle ∨ (t.phase = .run ∧ startsNext s)) ∧
    (s.phase = .done → t.phase = .done ∨ (t.phase = .run ∧ startsNext s) ∨ (t.phase = .idle ∧ resetsNext s)) ∧
    (s.phase = .run →
      (t.phase = .run ∧ ((∃ g u, nextTurn s = .inl (.cont g, u)) ∨ ¬ ∃ u, engineToMove s u)) ∨
      (t.phase = .done ∧ (∃ u, engineToMove s u) ∧
        ((∃ g u, nextTurn s = .inl (.last g, u)) ∨ (isDecode s.op = true ∧ s.cnt = ilen s))) ∨
      (t.phase = .idle ∧ resetsNext s))

/-- Who writes which register (10_state.md section 5): a step that is neither a start nor a reset leaves `OP`, and the
operand of an encode in `VAL`; `OBUF` is written by an encode step alone; `ERR` is set by an exhausted decode alone. -/
def Obligations.RegisterWriters : Prop :=
  ∀ s t : State, step s = .next t → ¬ resetsNext s →
    (¬ startsNext s → t.op = s.op ∧ (isDecode s.op = false → t.val = s.val ∧ t.err = s.err ∧ t.ovf = s.ovf)) ∧
    (t.obuf ≠ s.obuf → s.phase = .run ∧ isDecode s.op = false ∧ ∃ u, engineToMove s u) ∧
    (s.err = false → t.err = true → s.phase = .run ∧ isDecode s.op = true ∧ s.cnt = ilen s) ∧
    (¬ startsNext s → s.ovf = true → t.ovf = true)

/-- With no operation running, nothing but a start or a reset changes a register of the block: a result is held, and
`ERR` stays set. -/
def Obligations.ResultIsHeld : Prop :=
  ∀ s t : State, s.phase ≠ .run → step s = .next t → ¬ startsNext s → ¬ resetsNext s →
    t.op = s.op ∧ t.val = s.val ∧ t.mag = s.mag ∧ t.cnt = s.cnt ∧ t.phase = s.phase ∧ t.err = s.err ∧ t.ovf = s.ovf ∧
    t.obuf = s.obuf ∧ response t = response s

/-- The command inputs are latched: driving the value operand while an operation runs changes nothing the operation
reads. -/
def Obligations.OperandIsLatched : Prop :=
  ∀ (s : State) (v : Word) (rest : List HostMove), s.moves = .setValue v :: rest →
    step s = .next { s with value := v, moves := rest }

/-! ### Reset -/

/-- The state after reset: `PHASE = IDLE`, `ERR = 0`, `OVF = 0`, `STATUS = 0b0000`, and no response. -/
def Obligations.ResetState : Prop :=
  State.reset.phase = .idle ∧ State.reset.err = false ∧ State.reset.ovf = false ∧ statusView State.reset = 0b0000 ∧
    response State.reset = none

/-- Reset may come in any state, running or not: it leaves `PHASE = IDLE`, `ERR = 0`, `OVF = 0`, no response, and the
host's input unchanged; any operation may be started at once. That it also keeps the value operand the host drives, the
host's plans and what the host has read is the model's own (DEDUCED, log entry 17). -/
def Obligations.ResetFromAnyState : Prop :=
  ∀ (s : State) (rest : List HostMove), s.moves = .reset :: rest →
    ∃ t, step s = .next t ∧ t.phase = .idle ∧ t.err = false ∧ t.ovf = false ∧ response t = none ∧ t.ibuf = s.ibuf ∧
      t.value = s.value ∧ t.got = s.got ∧ t.moves = rest ∧ ∀ code, ∃ u, exec (decodeCommand code) t = .next u

/-! ### The host's view -/

/-- `STATUS` holds `ERR`, `OVF` and the code of `PHASE`, and a read of it, in any phase, changes nothing of the block.
Two things are the model's own: bit 1 is a free value after an error (log entry 7), and in `RUN` it is the `OVF` of the
decode so far (DEDUCED, log entry 16). -/
def Obligations.StatusIsReadable : Prop :=
  (∀ s : State, (statusView s).getLsbD 0 = s.err ∧ (statusView s).getLsbD 1 = s.ovf ∧
    (statusView s).extractLsb' 2 2 = phaseCode s.phase) ∧
  (∀ (s : State) (rest : List HostMove), s.moves = .readStatus :: rest →
    ∃ x n, step s = .next { s with moves := rest, got := s.got ++ [.status x], draws := n } ∧
      x.getLsbD 0 = s.err ∧ x.extractLsb' 2 2 = phaseCode s.phase ∧ (endedInError s = false → x = statusView s))

/-- Where the host may read a result it gets the register's content; while an operation runs there is no such read, and
an index past `OBUF` faults (log entries 9 and 10). -/
def Obligations.ResultsAreReadableWhenDone : Prop :=
  ∀ (s : State) (rest : List HostMove),
    (s.moves = .readVal :: rest →
      (s.phase = .run → step s = .refused .readWhileRunning) ∧
      (s.phase = .done → (isDecode s.op = true → s.err = false) →
        step s = .next { s with moves := rest, got := s.got ++ [.val s.val] })) ∧
    (s.moves = .readCnt :: rest →
      (s.phase = .run → step s = .refused .readWhileRunning) ∧
      (s.phase = .done → (isDecode s.op = true → s.err = false) →
        step s = .next { s with moves := rest, got := s.got ++ [.cnt s.cnt] })) ∧
    (∀ i, s.moves = .readObuf i :: rest →
      (s.phase = .run → step s = .refused .readWhileRunning) ∧
      (s.phase = .done → isDecode s.op = false → i < s.cnt.toNat → i < 10 →
        step s = .next { s with moves := rest, got := s.got ++ [.octet (obufRead s.obuf i)] }) ∧
      (s.phase ≠ .run → 10 ≤ i → step s = .fault .obufIndex))

/-- The host presents any input that is not too long, while no operation runs; while one runs the input is stable
(20_memory.md R63). That presenting one then is refused is log entry 9. That an input above `2^64 - 1` octets is refused
is the model's own (DEDUCED, log entry 9): R52 only bounds `ILEN`, and 30_encoding.md R92 refuses no length. -/
def Obligations.InputIsStableWhileRunning : Prop :=
  (∀ (s : State) (octets : List Byte) (rest : List HostMove), s.moves = .setInput octets :: rest →
    (s.phase = .run → step s = .refused .inputChangedWhileRunning) ∧
    (s.phase ≠ .run → octets.length ≤ 2 ^ 64 - 1 → step s = .next { s with ibuf := octets, moves := rest }) ∧
    (s.phase ≠ .run → 2 ^ 64 - 1 < octets.length → step s = .refused .inputTooLong)) ∧
  (∀ s t : State, step s = .next t → s.phase = .run → t.ibuf = s.ibuf)

/-! ### Whole operations -/

/-- An encode, from any state with no operation running: after the start and exactly `len(GENC(m))` engine steps it is
`DONE`, its response is the function-level result, `CNT` is the length, `ERR` and `OVF` are 0, and nothing at or past the
length has been written. -/
def Obligations.EncodeComputesItsFunction : Prop :=
  ∀ (s : State) (signed : Bool), s.phase ≠ .run → s.moves = [.start (if signed then 0b10 else 0b00)] →
    let e := if signed then encodeSigned s.value else encodeUnsigned s.value
    ∃ t, Host.Core.run Sys2Proof.core (1 + e.length) s = .next t ∧ t.phase = .done ∧
      response t = some (.octets e) ∧ t.cnt.toNat = e.length ∧ t.err = false ∧ t.ovf = false ∧ t.val = s.value ∧
      t.ibuf = s.ibuf ∧ (∀ i, e.length ≤ i → obufRead t.obuf i = obufRead s.obuf i) ∧
      ∀ n, 1 ≤ n → n ≤ e.length → ∃ u, Host.Core.run Sys2Proof.core n s = .next u ∧ u.phase = .run

/-- A decode, from any state with no operation running: after the start and exactly `consumed` engine steps (`ILEN + 1`
if it fails) it is `DONE` and its response is the function-level result; `OBUF` and `IBUF` are unchanged. -/
def Obligations.DecodeComputesItsFunction : Prop :=
  ∀ (s : State) (signed : Bool), s.phase ≠ .run → s.moves = [.start (if signed then 0b11 else 0b01)] →
    s.ibuf.length ≤ 2 ^ 64 - 1 →
    let steps := match gdec s.ibuf with
      | .ok d => d.consumed
      | .error _ => s.ibuf.length + 1
    ∃ t, Host.Core.run Sys2Proof.core (1 + steps) s = .next t ∧ t.phase = .done ∧
      response t = some (if signed then decodeSigned s.ibuf else decodeUnsigned s.ibuf) ∧ t.obuf = s.obuf ∧
      t.ibuf = s.ibuf ∧ (∀ d, gdec s.ibuf = .ok d → t.mag = d.mag ∧ t.err = false) ∧
      ∀ n, 1 ≤ n → n ≤ steps → ∃ u, Host.Core.run Sys2Proof.core n s = .next u ∧ u.phase = .run

/-- The response of an operation does not depend on what the block holds before it starts. -/
def Obligations.IndependenceFromEarlierState : Prop :=
  ∀ (a b : State) (code : Code), a.phase ≠ .run → b.phase ≠ .run → a.moves = [.start code] → b.moves = [.start code] →
    a.value = b.value → a.ibuf = b.ibuf → a.ibuf.length ≤ 2 ^ 64 - 1 →
    ∃ n t u, Host.Core.run Sys2Proof.core n a = .next t ∧ Host.Core.run Sys2Proof.core n b = .next u ∧
      t.phase = .done ∧ u.phase = .done ∧ (response t).isSome = true ∧ response t = response u

/-- A decode does not depend on the octets after the ones it consumes: with another tail in the buffer, every step leaves
the same state but for the buffer itself. -/
def Obligations.DecodeNeverLooksPastItsValue : Prop :=
  ∀ (s : State) (other : List Byte) (d : Decoded) (code : Code), isDecode code = true → s.phase ≠ .run →
    s.moves = [.start code] → gdec s.ibuf = .ok d → other.take d.consumed = s.ibuf.take d.consumed →
    s.ibuf.length ≤ 2 ^ 64 - 1 → other.length ≤ 2 ^ 64 - 1 →
    ∀ n, ∃ t, Host.Core.run Sys2Proof.core n s = .next t ∧
      Host.Core.run Sys2Proof.core n { s with ibuf := other } = .next { t with ibuf := other }

/-- Every operation ends: from a running state that meets the invariant, the engine alone reaches `DONE` within the bound
and there is a response. -/
def Obligations.EveryOperationEnds : Prop :=
  ∀ s : State, Inv s → s.phase = .run → s.moves = [] →
    ∃ n t, n ≤ (if isDecode s.op then s.ibuf.length + 1 else 10) - s.cnt.toNat ∧
      Host.Core.run Sys2Proof.core n s = .next t ∧ t.phase = .done ∧ (response t).isSome = true

/-! ### Invariants and safety -/

/-- The state after reset meets the invariant. -/
def Obligations.ResetMeetsTheInvariant : Prop := Inv State.reset

/-- Every step keeps the invariant. -/
def Obligations.StepKeepsTheInvariant : Prop :=
  ∀ s t : State, Inv s → step s = .next t → Inv t

/-- In a state that meets the invariant the response of a finished encode is the encoding of its operand. -/
def Obligations.FinishedEncodeIsRight : Prop :=
  ∀ s : State, Inv s → s.phase = .done → isDecode s.op = false →
    response s = some (.octets (if isSigned s.op then encodeSigned s.val else encodeUnsigned s.val))

/-- A host that keeps its duties is never stopped: no fault and no refusal, however long it runs. -/
def Obligations.DutifulHostIsNeverStopped : Prop :=
  ∀ s : State, Inv s → keepsDuties (decide (s.phase = .run)) s.moves = true → neverStops s
end

