-- ==== Sys2Proof/Laws/Codec.lean ====
section
/-! SUPPORT. Small lemmas about the codec's functions, from which the laws of the codec are built. -/

namespace Sys2Proof.Machine

/-! ### The bit-level operators as numbers -/

theorem grp_toNat (m : Word) : (grp m).toNat = m.toNat % 2 ^ 7 := by simp [grp]

theorem shr64_toNat (m : Word) (k : Nat) : (shr64 m k).toNat = m.toNat / 2 ^ k := by
  simp [shr64, Nat.shiftRight_eq_div_pow]

theorem continues_eq (m : Word) : continues m = decide (127 < m.toNat) := by
  simp [continues, Config.groupMax, BitVec.lt_def]

theorem tag_toNat (c : Bool) (g : Group) : (tag c g).toNat = 128 * c.toNat + g.toNat := by
  revert c g; decide

theorem tag_flag (c : Bool) (g : Group) : (tag c g).getLsbD 7 = c := by
  revert c g; decide

theorem tag_group (c : Bool) (g : Group) : (tag c g).toNat % 128 = g.toNat := by
  revert c g; decide

theorem octet_flag_iff (b : Byte) : b.getLsbD 7 = true ↔ 0x80 ≤ b.toNat := by
  revert b; decide

theorem octet_group_toNat (b : Byte) : (b.setWidth 7 : Group).toNat = b.toNat % 128 := by
  revert b; decide

theorem packLost_iff (g : Group) (i : Nat) : packLost g i = true ↔ 2 ^ 64 ≤ packFull g i := by
  simp only [packLost, decide_eq_true_eq, ne_eq, Nat.div_eq_zero_iff]
  omega

theorem tag_untag (b : Byte) : tag (untag b).1 (untag b).2 = b := by
  revert b; decide

/-! ### `terminatorIndex` and `rawMagnitude` -/

@[simp] theorem terminatorIndex_nil : terminatorIndex [] = none := rfl

theorem terminatorIndex_cons_cont {b : Byte} (h : b.getLsbD 7 = true) (s : List Byte) :
    terminatorIndex (b :: s) = (terminatorIndex s).map (· + 1) := by simp only [terminatorIndex, h, if_true]

theorem terminatorIndex_cons_last {b : Byte} (h : b.getLsbD 7 = false) (s : List Byte) :
    terminatorIndex (b :: s) = some 0 := by simp only [terminatorIndex, h, Bool.false_eq_true, if_false]

/-- There is no terminator exactly when every octet is a continuation octet. -/
theorem terminatorIndex_eq_none {s : List Byte} : terminatorIndex s = none ↔ ∀ b ∈ s, b.getLsbD 7 = true := by
  induction s with
  | nil => simp
  | cons b s ih =>
    cases h : b.getLsbD 7
    · rw [terminatorIndex_cons_last h]
      simp only [reduceCtorEq, List.mem_cons, forall_eq_or_imp, h, Bool.false_eq_true, false_and]
    · rw [terminatorIndex_cons_cont h]
      simp only [Option.map_eq_none_iff, ih, List.mem_cons, forall_eq_or_imp, h, true_and]

/-- The terminator is inside the buffer, it is a terminating octet, and every octet before it continues. -/
theorem terminatorIndex_eq_some {s : List Byte} {k : Nat} :
    terminatorIndex s = some k ↔
      ∃ p b t, s = p ++ b :: t ∧ p.length = k ∧ b.getLsbD 7 = false ∧ ∀ x ∈ p, x.getLsbD 7 = true := by
  induction s generalizing k with
  | nil => simp
  | cons c s ih =>
    cases h : c.getLsbD 7
    · rw [terminatorIndex_cons_last h]
      constructor
      · rintro ⟨⟩
        exact ⟨[], c, s, rfl, rfl, h, by simp⟩
      · rintro ⟨p, b, t, hs, hl, hb, hp⟩
        cases p with
        | nil => simpa using hl
        | cons x p =>
          simp only [List.cons_append, List.cons.injEq] at hs
          have := hp x (by simp)
          rw [← hs.1, h] at this
          cases this
    · rw [terminatorIndex_cons_cont h]
      simp only [Option.map_eq_some_iff]
      constructor
      · rintro ⟨j, hj, rfl⟩
        obtain ⟨p, b, t, rfl, rfl, hb, hp⟩ := ih.mp hj
        exact ⟨c :: p, b, t, rfl, rfl, hb, by simpa [h] using hp⟩
      · rintro ⟨p, b, t, hs, hl, hb, hp⟩
        cases p with
        | nil =>
          simp only [List.nil_append, List.cons.injEq] at hs
          rw [hs.1, hb] at h
          cases h
        | cons x p =>
          simp only [List.cons_append, List.cons.injEq] at hs
          refine ⟨p.length, ih.mpr ⟨p, b, t, hs.2, rfl, hb, fun y hy => hp y (by simp [hy])⟩, by simpa using hl⟩

theorem rawMagnitude_append (s t : List Byte) :
    rawMagnitude (s ++ t) = rawMagnitude s + 2 ^ (7 * s.length) * rawMagnitude t := by
  induction s with
  | nil => simp [rawMagnitude]
  | cons b s ih =>
    simp only [List.cons_append, rawMagnitude, ih, List.length_cons, Nat.mul_add, Nat.pow_add]
    ring

theorem rawMagnitude_lt (s : List Byte) : rawMagnitude s < 2 ^ (7 * s.length) := by
  induction s with
  | nil => simp [rawMagnitude]
  | cons b s ih =>
    simp only [rawMagnitude, List.length_cons, Nat.mul_add, Nat.pow_add]
    have := Nat.mod_lt b.toNat (show 128 > 0 by decide)
    omega

/-- One more octet adds its group at offset `7 * length`. -/
theorem rawMagnitude_concat (s : List Byte) (b : Byte) :
    rawMagnitude (s ++ [b]) = rawMagnitude s + b.toNat % 128 * 2 ^ (7 * s.length) := by
  rw [rawMagnitude_append]; simp [rawMagnitude, Nat.mul_comm]

/-! ### `GENC` with enough fuel -/

theorem gencUpTo_ne_nil (n : Nat) (m : Word) : gencUpTo n m ≠ [] := by
  cases n <;> simp [gencUpTo]
  split <;> simp

/-- More fuel than a magnitude needs changes nothing. -/
theorem gencUpTo_fuel {n : Nat} {m : Word} (h : m.toNat < 2 ^ (7 * (n + 1))) (k : Nat) :
    gencUpTo (n + k) m = gencUpTo n m := by
  induction n generalizing m k with
  | zero =>
    cases k with
    | zero => rfl
    | succ k =>
      have : ¬ 127 < m.toNat := by omega
      rw [Nat.zero_add, gencUpTo, gencUpTo, continues_eq]
      simp [this]
  | succ n ih =>
    rw [show n + 1 + k = (n + k) + 1 by omega, gencUpTo, gencUpTo]
    split
    · rw [ih]
      rw [shr64_toNat]
      rw [show 7 * (n + 1 + 1) = 7 * (n + 1) + 7 by omega, Nat.pow_add] at h
      exact Nat.div_lt_of_lt_mul (by omega)
    · rfl

end Sys2Proof.Machine
end

