-- ==== Sys2Proof/Laws/Memory.lean ====
section
/-! SUPPORT. The laws of `OBUF`: read after write, and the canonical form. -/

namespace Sys2Proof.Machine

/-! ### Read after write -/

@[simp] theorem obufRead_nil (i : Nat) : obufRead [] i = obufUnlisted := rfl

@[simp] theorem obufRead_cons (a : Nat) (b : Byte) (rest : Memory) (i : Nat) :
    obufRead ((a, b) :: rest) i = if a = i then b else obufRead rest i := rfl

theorem obufErase_cons (a i : Nat) (b : Byte) (rest : Memory) :
    obufErase ((a, b) :: rest) i = if a = i then obufErase rest i else (a, b) :: obufErase rest i := by
  by_cases h : a = i <;> simp [obufErase, h]

theorem obufRead_erase (m : Memory) (i j : Nat) :
    obufRead (obufErase m i) j = if j = i then obufUnlisted else obufRead m j := by
  induction m with
  | nil => simp [obufErase]
  | cons c rest ih =>
    obtain ⟨a, c⟩ := c
    rw [obufErase_cons]
    by_cases h : a = i
    · subst h
      rw [if_pos rfl, ih]
      by_cases hj : j = a
      · simp only [hj, if_true]
      · simp [hj, Ne.symm hj]
    · by_cases hj : a = j
      · subst hj
        simp [h]
      · simp [h, hj, ih]

theorem obufRead_insert (m : Memory) (i j : Nat) (b : Byte) :
    obufRead (obufInsert m i b) j = if j = i then b else obufRead m j := by
  induction m with
  | nil => simp [obufInsert, @eq_comm _ i j]
  | cons c rest ih =>
    obtain ⟨a, c⟩ := c
    by_cases h1 : i < a
    · simp [obufInsert, h1, @eq_comm _ i j]
    · by_cases h2 : i = a
      · subst h2
        by_cases hj : j = i <;> simp [obufInsert, hj, @eq_comm _ i j]
      · by_cases hj : a = j
        · subst hj
          simp [obufInsert, h1, h2, Ne.symm h2]
        · simp [obufInsert, h1, h2, hj, ih]

/-- A read after a write: the octet written at its index, and every other index as before (20_memory.md R59). -/
theorem obufRead_store (m : Memory) (i j : Nat) (b : Byte) :
    obufRead (obufStore m i b) j = if j = i then b else obufRead m j := by
  by_cases h : b = obufUnlisted
  · simp [obufStore, h, obufRead_erase]
  · simp [obufStore, h, obufRead_insert]

@[simp] theorem obufRead_store_same (m : Memory) (i : Nat) (b : Byte) : obufRead (obufStore m i b) i = b := by
  rw [obufRead_store, if_pos rfl]

theorem obufRead_store_other (m : Memory) {i j : Nat} (b : Byte) (h : j ≠ i) :
    obufRead (obufStore m i b) j = obufRead m j := by
  rw [obufRead_store, if_neg h]

/-! ### The canonical form -/

/-- The canonical form of a list, said of its first cell. -/
theorem canonicalFrom_cons {hi lo a : Nat} {b : Byte} {rest : Memory} :
    canonicalFrom hi lo ((a, b) :: rest) = true ↔
      lo ≤ a ∧ a < hi ∧ b ≠ obufUnlisted ∧ canonicalFrom hi (a + 1) rest = true := by
  simp only [canonicalFrom, Bool.and_eq_true, decide_eq_true_eq, and_assoc]

theorem canonicalFrom_mono {hi lo lo' : Nat} {m : Memory} (h : lo ≤ lo') (hw : canonicalFrom hi lo' m = true) :
    canonicalFrom hi lo m = true := by
  cases m with
  | nil => rfl
  | cons c rest =>
    obtain ⟨a, c⟩ := c
    rw [canonicalFrom_cons] at hw ⊢
    exact ⟨Nat.le_trans h hw.1, hw.2⟩

theorem canonicalFrom_erase {hi lo : Nat} {m : Memory} (i : Nat) (hw : canonicalFrom hi lo m = true) :
    canonicalFrom hi lo (obufErase m i) = true := by
  induction m generalizing lo with
  | nil => rfl
  | cons c rest ih =>
    obtain ⟨a, c⟩ := c
    rw [canonicalFrom_cons] at hw
    obtain ⟨hl, hh, hc, hr⟩ := hw
    rw [obufErase_cons]
    split
    · exact ih (canonicalFrom_mono (by omega) hr)
    · exact canonicalFrom_cons.mpr ⟨hl, hh, hc, ih hr⟩

theorem canonicalFrom_insert {hi lo : Nat} {m : Memory} {i : Nat} {b : Byte} (hb : b ≠ obufUnlisted)
    (hw : canonicalFrom hi lo m = true) (hl : lo ≤ i) (hh : i < hi) : canonicalFrom hi lo (obufInsert m i b) = true := by
  induction m generalizing lo with
  | nil => exact canonicalFrom_cons.mpr ⟨hl, hh, hb, rfl⟩
  | cons c rest ih =>
    obtain ⟨a, c⟩ := c
    rw [canonicalFrom_cons] at hw
    obtain ⟨ha, hah, hc, hr⟩ := hw
    simp only [obufInsert]
    split
    · exact canonicalFrom_cons.mpr ⟨hl, hh, hb, canonicalFrom_cons.mpr ⟨by omega, hah, hc, hr⟩⟩
    · split
      · rename_i h
        subst h
        exact canonicalFrom_cons.mpr ⟨ha, hah, hb, hr⟩
      · exact canonicalFrom_cons.mpr ⟨ha, hah, hc, ih hr (by omega)⟩

/-- A write of an index of `OBUF` keeps the canonical form. -/
theorem wf_obufStore {m : Memory} {i : Nat} (b : Byte) (hw : Memory.wf m = true) (hi : i < Config.maxEncLen) :
    Memory.wf (obufStore m i b) = true := by
  unfold obufStore
  split
  · exact canonicalFrom_erase i hw
  · rename_i hb
    exact canonicalFrom_insert hb hw (Nat.zero_le i) hi

/-- Reset memory is canonical. -/
theorem wf_reset : Memory.wf State.reset.obuf = true := rfl

/-- After reset each octet of `OBUF` holds the value the model names. -/
@[simp] theorem obufRead_reset (i : Nat) : obufRead State.reset.obuf i = obufUnlisted := rfl

/-- Below the first listed index nothing is listed. -/
theorem obufRead_below {hi lo : Nat} {m : Memory} {i : Nat} (hw : canonicalFrom hi lo m = true) (h : i < lo) :
    obufRead m i = obufUnlisted := by
  induction m generalizing lo with
  | nil => rfl
  | cons c rest ih =>
    obtain ⟨a, c⟩ := c
    rw [canonicalFrom_cons] at hw
    rw [obufRead_cons, if_neg (by omega), ih hw.2.2.2 (by omega)]

/-- Canonical memories with the same octets are the same list. -/
theorem memory_ext {hi lo : Nat} {m n : Memory} (hm : canonicalFrom hi lo m = true)
    (hn : canonicalFrom hi lo n = true) (h : ∀ i, obufRead m i = obufRead n i) : m = n := by
  induction m generalizing lo n with
  | nil =>
    cases n with
    | nil => rfl
    | cons d rest =>
      have hd := h d.1
      rw [obufRead_nil, obufRead_cons, if_pos rfl] at hd
      exact absurd hd.symm (canonicalFrom_cons.mp hn).2.2.1
  | cons c rest ih =>
    obtain ⟨a, c⟩ := c
    have hc := canonicalFrom_cons.mp hm
    cases n with
    | nil =>
      have ha := h a
      rw [obufRead_nil, obufRead_cons, if_pos rfl] at ha
      exact absurd ha hc.2.2.1
    | cons d rest' =>
      obtain ⟨a', d⟩ := d
      have hd := canonicalFrom_cons.mp hn
      have haa : a = a' := by
        rcases Nat.lt_trichotomy a a' with hlt | heq | hlt
        · have ha := h a
          rw [obufRead_cons, if_pos rfl, obufRead_cons, if_neg (by omega), obufRead_below hd.2.2.2 (by omega)] at ha
          exact absurd ha hc.2.2.1
        · exact heq
        · have ha := h a'
          rw [obufRead_cons, if_neg (by omega), obufRead_below hc.2.2.2 (by omega), obufRead_cons, if_pos rfl] at ha
          exact absurd ha.symm hd.2.2.1
      subst haa
      have hcd : c = d := by simpa using h a
      subst hcd
      congr 1
      refine ih hc.2.2.2 hd.2.2.2 fun i => ?_
      by_cases hi : i = a
      · rw [hi, obufRead_below hc.2.2.2 (by omega), obufRead_below hd.2.2.2 (by omega)]
      · simpa [Ne.symm hi] using h i

end Sys2Proof.Machine
end

