-- ==== Sys2Proof/Laws/State.lean ====
section
/-! SUPPORT. One lemma per field per named update of State. -/

namespace Sys2Proof.Machine

@[simp] theorem startEncode_op (code : Code) (s : State) : (startEncode code s).op = code := rfl
@[simp] theorem startEncode_val (code : Code) (s : State) : (startEncode code s).val = s.value := rfl
@[simp] theorem startEncode_mag (code : Code) (s : State) : (startEncode code s).mag = operandMagnitude code s.value := rfl
@[simp] theorem startEncode_cnt (code : Code) (s : State) : (startEncode code s).cnt = 0 := rfl
@[simp] theorem startEncode_phase (code : Code) (s : State) : (startEncode code s).phase = .run := rfl
@[simp] theorem startEncode_err (code : Code) (s : State) : (startEncode code s).err = false := rfl
@[simp] theorem startEncode_ovf (code : Code) (s : State) : (startEncode code s).ovf = false := rfl
@[simp] theorem startEncode_obuf (code : Code) (s : State) : (startEncode code s).obuf = s.obuf := rfl
@[simp] theorem startEncode_value (code : Code) (s : State) : (startEncode code s).value = s.value := rfl
@[simp] theorem startEncode_ibuf (code : Code) (s : State) : (startEncode code s).ibuf = s.ibuf := rfl
@[simp] theorem startEncode_moves (code : Code) (s : State) : (startEncode code s).moves = s.moves := rfl
@[simp] theorem startEncode_got (code : Code) (s : State) : (startEncode code s).got = s.got := rfl
@[simp] theorem startEncode_draws (code : Code) (s : State) : (startEncode code s).draws = s.draws := rfl

@[simp] theorem startDecode_op (code : Code) (s : State) : (startDecode code s).op = code := rfl
@[simp] theorem startDecode_val (code : Code) (s : State) : (startDecode code s).val = s.val := rfl
@[simp] theorem startDecode_mag (code : Code) (s : State) : (startDecode code s).mag = 0 := rfl
@[simp] theorem startDecode_cnt (code : Code) (s : State) : (startDecode code s).cnt = 0 := rfl
@[simp] theorem startDecode_phase (code : Code) (s : State) : (startDecode code s).phase = .run := rfl
@[simp] theorem startDecode_err (code : Code) (s : State) : (startDecode code s).err = false := rfl
@[simp] theorem startDecode_ovf (code : Code) (s : State) : (startDecode code s).ovf = false := rfl
@[simp] theorem startDecode_obuf (code : Code) (s : State) : (startDecode code s).obuf = s.obuf := rfl
@[simp] theorem startDecode_value (code : Code) (s : State) : (startDecode code s).value = s.value := rfl
@[simp] theorem startDecode_ibuf (code : Code) (s : State) : (startDecode code s).ibuf = s.ibuf := rfl
@[simp] theorem startDecode_moves (code : Code) (s : State) : (startDecode code s).moves = s.moves := rfl
@[simp] theorem startDecode_got (code : Code) (s : State) : (startDecode code s).got = s.got := rfl
@[simp] theorem startDecode_draws (code : Code) (s : State) : (startDecode code s).draws = s.draws := rfl

@[simp] theorem packGroup_op (g : Group) (s : State) : (packGroup g s).op = s.op := rfl
@[simp] theorem packGroup_val (g : Group) (s : State) : (packGroup g s).val = s.val := rfl
@[simp] theorem packGroup_mag (g : Group) (s : State) : (packGroup g s).mag = packAcc s.mag g s.cnt.toNat := rfl
@[simp] theorem packGroup_cnt (g : Group) (s : State) : (packGroup g s).cnt = s.cnt + 1 := rfl
@[simp] theorem packGroup_phase (g : Group) (s : State) : (packGroup g s).phase = s.phase := rfl
@[simp] theorem packGroup_err (g : Group) (s : State) : (packGroup g s).err = s.err := rfl
@[simp] theorem packGroup_ovf (g : Group) (s : State) : (packGroup g s).ovf = (s.ovf || packLost g s.cnt.toNat) := rfl
@[simp] theorem packGroup_obuf (g : Group) (s : State) : (packGroup g s).obuf = s.obuf := rfl
@[simp] theorem packGroup_value (g : Group) (s : State) : (packGroup g s).value = s.value := rfl
@[simp] theorem packGroup_ibuf (g : Group) (s : State) : (packGroup g s).ibuf = s.ibuf := rfl
@[simp] theorem packGroup_moves (g : Group) (s : State) : (packGroup g s).moves = s.moves := rfl
@[simp] theorem packGroup_got (g : Group) (s : State) : (packGroup g s).got = s.got := rfl
@[simp] theorem packGroup_draws (g : Group) (s : State) : (packGroup g s).draws = s.draws := rfl

@[simp] theorem finishDecode_op (s : State) : (finishDecode s).op = s.op := rfl
@[simp] theorem finishDecode_val (s : State) : (finishDecode s).val = decodedValue s.op s.mag := rfl
@[simp] theorem finishDecode_mag (s : State) : (finishDecode s).mag = s.mag := rfl
@[simp] theorem finishDecode_cnt (s : State) : (finishDecode s).cnt = s.cnt := rfl
@[simp] theorem finishDecode_phase (s : State) : (finishDecode s).phase = .done := rfl
@[simp] theorem finishDecode_err (s : State) : (finishDecode s).err = s.err := rfl
@[simp] theorem finishDecode_ovf (s : State) : (finishDecode s).ovf = s.ovf := rfl
@[simp] theorem finishDecode_obuf (s : State) : (finishDecode s).obuf = s.obuf := rfl
@[simp] theorem finishDecode_value (s : State) : (finishDecode s).value = s.value := rfl
@[simp] theorem finishDecode_ibuf (s : State) : (finishDecode s).ibuf = s.ibuf := rfl
@[simp] theorem finishDecode_moves (s : State) : (finishDecode s).moves = s.moves := rfl
@[simp] theorem finishDecode_got (s : State) : (finishDecode s).got = s.got := rfl
@[simp] theorem finishDecode_draws (s : State) : (finishDecode s).draws = s.draws := rfl

@[simp] theorem shiftMagnitude_op (s : State) : (shiftMagnitude s).op = s.op := rfl
@[simp] theorem shiftMagnitude_val (s : State) : (shiftMagnitude s).val = s.val := rfl
@[simp] theorem shiftMagnitude_mag (s : State) : (shiftMagnitude s).mag = shr64 s.mag 7 := rfl
@[simp] theorem shiftMagnitude_cnt (s : State) : (shiftMagnitude s).cnt = s.cnt := rfl
@[simp] theorem shiftMagnitude_phase (s : State) : (shiftMagnitude s).phase = s.phase := rfl
@[simp] theorem shiftMagnitude_err (s : State) : (shiftMagnitude s).err = s.err := rfl
@[simp] theorem shiftMagnitude_ovf (s : State) : (shiftMagnitude s).ovf = s.ovf := rfl
@[simp] theorem shiftMagnitude_obuf (s : State) : (shiftMagnitude s).obuf = s.obuf := rfl
@[simp] theorem shiftMagnitude_value (s : State) : (shiftMagnitude s).value = s.value := rfl
@[simp] theorem shiftMagnitude_ibuf (s : State) : (shiftMagnitude s).ibuf = s.ibuf := rfl
@[simp] theorem shiftMagnitude_moves (s : State) : (shiftMagnitude s).moves = s.moves := rfl
@[simp] theorem shiftMagnitude_got (s : State) : (shiftMagnitude s).got = s.got := rfl
@[simp] theorem shiftMagnitude_draws (s : State) : (shiftMagnitude s).draws = s.draws := rfl

@[simp] theorem finishEncode_op (s : State) : (finishEncode s).op = s.op := rfl
@[simp] theorem finishEncode_val (s : State) : (finishEncode s).val = s.val := rfl
@[simp] theorem finishEncode_mag (s : State) : (finishEncode s).mag = s.mag := rfl
@[simp] theorem finishEncode_cnt (s : State) : (finishEncode s).cnt = s.cnt := rfl
@[simp] theorem finishEncode_phase (s : State) : (finishEncode s).phase = .done := rfl
@[simp] theorem finishEncode_err (s : State) : (finishEncode s).err = s.err := rfl
@[simp] theorem finishEncode_ovf (s : State) : (finishEncode s).ovf = s.ovf := rfl
@[simp] theorem finishEncode_obuf (s : State) : (finishEncode s).obuf = s.obuf := rfl
@[simp] theorem finishEncode_value (s : State) : (finishEncode s).value = s.value := rfl
@[simp] theorem finishEncode_ibuf (s : State) : (finishEncode s).ibuf = s.ibuf := rfl
@[simp] theorem finishEncode_moves (s : State) : (finishEncode s).moves = s.moves := rfl
@[simp] theorem finishEncode_got (s : State) : (finishEncode s).got = s.got := rfl
@[simp] theorem finishEncode_draws (s : State) : (finishEncode s).draws = s.draws := rfl

@[simp] theorem raiseParseError_op (s : State) : (raiseParseError s).op = s.op := rfl
@[simp] theorem raiseParseError_val (s : State) : (raiseParseError s).val = s.val := rfl
@[simp] theorem raiseParseError_mag (s : State) : (raiseParseError s).mag = s.mag := rfl
@[simp] theorem raiseParseError_cnt (s : State) : (raiseParseError s).cnt = s.cnt := rfl
@[simp] theorem raiseParseError_phase (s : State) : (raiseParseError s).phase = .done := rfl
@[simp] theorem raiseParseError_err (s : State) : (raiseParseError s).err = true := rfl
@[simp] theorem raiseParseError_ovf (s : State) : (raiseParseError s).ovf = s.ovf := rfl
@[simp] theorem raiseParseError_obuf (s : State) : (raiseParseError s).obuf = s.obuf := rfl
@[simp] theorem raiseParseError_value (s : State) : (raiseParseError s).value = s.value := rfl
@[simp] theorem raiseParseError_ibuf (s : State) : (raiseParseError s).ibuf = s.ibuf := rfl
@[simp] theorem raiseParseError_moves (s : State) : (raiseParseError s).moves = s.moves := rfl
@[simp] theorem raiseParseError_got (s : State) : (raiseParseError s).got = s.got := rfl
@[simp] theorem raiseParseError_draws (s : State) : (raiseParseError s).draws = s.draws := rfl

@[simp] theorem resetBlock_op (s : State) : (resetBlock s).op = 0 := rfl
@[simp] theorem resetBlock_val (s : State) : (resetBlock s).val = 0 := rfl
@[simp] theorem resetBlock_mag (s : State) : (resetBlock s).mag = 0 := rfl
@[simp] theorem resetBlock_cnt (s : State) : (resetBlock s).cnt = 0 := rfl
@[simp] theorem resetBlock_phase (s : State) : (resetBlock s).phase = .idle := rfl
@[simp] theorem resetBlock_err (s : State) : (resetBlock s).err = false := rfl
@[simp] theorem resetBlock_ovf (s : State) : (resetBlock s).ovf = false := rfl
@[simp] theorem resetBlock_obuf (s : State) : (resetBlock s).obuf = [] := rfl
@[simp] theorem resetBlock_value (s : State) : (resetBlock s).value = s.value := rfl
@[simp] theorem resetBlock_ibuf (s : State) : (resetBlock s).ibuf = s.ibuf := rfl
@[simp] theorem resetBlock_moves (s : State) : (resetBlock s).moves = s.moves := rfl
@[simp] theorem resetBlock_got (s : State) : (resetBlock s).got = s.got := rfl
@[simp] theorem resetBlock_draws (s : State) : (resetBlock s).draws = s.draws := rfl

@[simp] theorem deliver_op (v : HostValue) (s : State) : (deliver v s).op = s.op := rfl
@[simp] theorem deliver_val (v : HostValue) (s : State) : (deliver v s).val = s.val := rfl
@[simp] theorem deliver_mag (v : HostValue) (s : State) : (deliver v s).mag = s.mag := rfl
@[simp] theorem deliver_cnt (v : HostValue) (s : State) : (deliver v s).cnt = s.cnt := rfl
@[simp] theorem deliver_phase (v : HostValue) (s : State) : (deliver v s).phase = s.phase := rfl
@[simp] theorem deliver_err (v : HostValue) (s : State) : (deliver v s).err = s.err := rfl
@[simp] theorem deliver_ovf (v : HostValue) (s : State) : (deliver v s).ovf = s.ovf := rfl
@[simp] theorem deliver_obuf (v : HostValue) (s : State) : (deliver v s).obuf = s.obuf := rfl
@[simp] theorem deliver_value (v : HostValue) (s : State) : (deliver v s).value = s.value := rfl
@[simp] theorem deliver_ibuf (v : HostValue) (s : State) : (deliver v s).ibuf = s.ibuf := rfl
@[simp] theorem deliver_moves (v : HostValue) (s : State) : (deliver v s).moves = s.moves := rfl
@[simp] theorem deliver_got (v : HostValue) (s : State) : (deliver v s).got = s.got ++ [v] := rfl
@[simp] theorem deliver_draws (v : HostValue) (s : State) : (deliver v s).draws = s.draws := rfl

@[simp] theorem drawn_op (s : State) : (drawn s).op = s.op := rfl
@[simp] theorem drawn_val (s : State) : (drawn s).val = s.val := rfl
@[simp] theorem drawn_mag (s : State) : (drawn s).mag = s.mag := rfl
@[simp] theorem drawn_cnt (s : State) : (drawn s).cnt = s.cnt := rfl
@[simp] theorem drawn_phase (s : State) : (drawn s).phase = s.phase := rfl
@[simp] theorem drawn_err (s : State) : (drawn s).err = s.err := rfl
@[simp] theorem drawn_ovf (s : State) : (drawn s).ovf = s.ovf := rfl
@[simp] theorem drawn_obuf (s : State) : (drawn s).obuf = s.obuf := rfl
@[simp] theorem drawn_value (s : State) : (drawn s).value = s.value := rfl
@[simp] theorem drawn_ibuf (s : State) : (drawn s).ibuf = s.ibuf := rfl
@[simp] theorem drawn_moves (s : State) : (drawn s).moves = s.moves := rfl
@[simp] theorem drawn_got (s : State) : (drawn s).got = s.got := rfl
@[simp] theorem drawn_draws (s : State) : (drawn s).draws = s.draws + 1 := rfl

end Sys2Proof.Machine
end

