-- ==== Sys2Proof/Laws/Ops.lean ====
section
/-! SUPPORT. What each shared operation can answer, said once. -/

namespace Sys2Proof.Machine

theorem decodeCommand_code (code : Code) :
    decodeCommand code = .encu ∧ code = 0 ∨ decodeCommand code = .decu ∧ code = 1 ∨
      decodeCommand code = .encs ∧ code = 2 ∨ decodeCommand code = .decs ∧ code = 3 := by
  revert code; decide

theorem inputWellFormed_iff {o : List Byte} : inputWellFormed o = true ↔ o.length ≤ 2 ^ 64 - 1 := by
  rw [inputWellFormed, decide_eq_true_eq, Config.ilenMax]

theorem whenReady_of_ready {s t : State} (h : s.phase ≠ .run) : whenReady s t = .next t := by
  unfold whenReady
  split <;> simp_all

theorem whenReady_of_run {s t : State} (h : s.phase = .run) : whenReady s t = .refused .startWhileRunning := by
  simp [whenReady, h]

/-- A start answers a next state exactly when no operation runs, and it is the one given. -/
theorem whenReady_next_iff {s t u : State} : whenReady s t = .next u ↔ s.phase ≠ .run ∧ u = t := by
  cases h : s.phase <;> simp [whenReady, h, eq_comm]

theorem emitOctet_of_index {b : Byte} {s : State} (h : s.cnt.toNat < 10) :
    emitOctet b s = .next { s with obuf := obufStore s.obuf s.cnt.toNat b, cnt := s.cnt + 1 } := by
  simp [emitOctet, outputIndex, Config.maxEncLen, h]

/-- An octet is written exactly when `CNT` is an index of `OBUF`. -/
theorem emitOctet_next_iff {b : Byte} {s t : State} :
    emitOctet b s = .next t ↔
      s.cnt.toNat < 10 ∧ t = { s with obuf := obufStore s.obuf s.cnt.toNat b, cnt := s.cnt + 1 } := by
  by_cases h : s.cnt.toNat < 10 <;> simp [emitOctet, outputIndex, Config.maxEncLen, h, eq_comm]

theorem andThen_next_iff {r : Result} {k : State → State} {t : State} :
    andThen r k = .next t ↔ ∃ s, r = .next s ∧ t = k s := by
  cases r <;> simp [andThen, eq_comm]

/-- An octet runs only while an operation runs, in that operation's direction. -/
theorem byDirection_next_iff {c e : State → Result} {s t : State} :
    byDirection c e s = .next t ↔
      s.phase = .run ∧ (isDecode s.op = true ∧ c s = .next t ∨ isDecode s.op = false ∧ e s = .next t) := by
  cases h : s.phase <;> cases hd : isDecode s.op <;> simp [byDirection, h, hd]

theorem octetDue_cont_iff {g : Group} {s : State} : octetDue s = .cont g ↔ 127#64 < s.mag ∧ g = grp s.mag := by
  by_cases h : (127#64) < s.mag <;> simp [octetDue, continues, Config.groupMax, h, eq_comm]

theorem octetDue_last_iff {g : Group} {s : State} : octetDue s = .last g ↔ s.mag ≤ 127#64 ∧ g = grp s.mag := by
  by_cases h : (127#64) < s.mag
  · simp [octetDue, continues, Config.groupMax, h]
  · simp [octetDue, continues, Config.groupMax, h, BitVec.not_lt.mp h, eq_comm]

/-- Everything `CONT` can do when it answers a next state. -/
theorem execCont_next_iff {g : Group} {s t : State} :
    execCont g s = .next t ↔
      s.phase = .run ∧
        (isDecode s.op = true ∧ t = packGroup g s ∨
          isDecode s.op = false ∧ 127#64 < s.mag ∧ g = grp s.mag ∧ s.cnt.toNat < 10 ∧
            t = shiftMagnitude { s with obuf := obufStore s.obuf s.cnt.toNat (tag true g), cnt := s.cnt + 1 }) := by
  rw [execCont, byDirection_next_iff]
  by_cases h : octetDue s = .cont g
  · simp only [emitCont, h, if_true, consumeCont, andThen_next_iff, emitOctet_next_iff]
    rw [octetDue_cont_iff] at h
    simp [h.1, h.2, @eq_comm _ t]
  · simp only [emitCont, h, if_false, consumeCont]
    rw [octetDue_cont_iff] at h
    simp only [Host.Outcome.next.injEq, reduceCtorEq, and_false, or_false, @eq_comm _ t]
    tauto

/-- Everything `LAST` can do when it answers a next state. -/
theorem execLast_next_iff {g : Group} {s t : State} :
    execLast g s = .next t ↔
      s.phase = .run ∧
        (isDecode s.op = true ∧ t = finishDecode (packGroup g s) ∨
          isDecode s.op = false ∧ s.mag ≤ 127#64 ∧ g = grp s.mag ∧ s.cnt.toNat < 10 ∧
            t = finishEncode { s with obuf := obufStore s.obuf s.cnt.toNat (tag false g), cnt := s.cnt + 1 }) := by
  rw [execLast, byDirection_next_iff]
  by_cases h : octetDue s = .last g
  · simp only [emitLast, h, if_true, consumeLast, andThen_next_iff, emitOctet_next_iff]
    rw [octetDue_last_iff] at h
    simp [h.1, h.2, @eq_comm _ t]
  · simp only [emitLast, h, if_false, consumeLast]
    rw [octetDue_last_iff] at h
    simp only [Host.Outcome.next.injEq, reduceCtorEq, and_false, or_false, @eq_comm _ t]
    tauto

/-- A read of a result register hands the host one word and changes nothing else but the count of draws. -/
theorem hostReadWord_next_iff {w : Word → HostValue} {c : Word} {s t : State} :
    hostReadWord w c s = .next t ↔
      s.phase ≠ .run ∧
        (resultSpecified s = true ∧ t = deliver (w c) s ∨
          resultSpecified s = false ∧ t = deliver (w (Config.freeWord s.draws)) (drawn s)) := by
  cases h : s.phase <;> cases hr : resultSpecified s <;> simp_all [hostReadWord, resultSpecified, @eq_comm _ t]

/-- Everything a host read of `OBUF` can do when it answers a next state. -/
theorem hostReadObuf_next_iff {i : Nat} {s t : State} :
    hostReadObuf i s = .next t ↔
      s.phase ≠ .run ∧ i < 10 ∧
        (octetSpecified s i = true ∧ t = deliver (.octet (obufRead s.obuf i)) s ∨
          octetSpecified s i = false ∧ t = deliver (.octet (Config.freeOctet s.draws)) (drawn s)) := by
  cases hp : s.phase with
  | run => simp [hostReadObuf, hp]
  | idle =>
    have hs : octetSpecified s i = false := by simp [octetSpecified, hp]
    by_cases hi : i < 10 <;> simp [hostReadObuf, hp, Config.maxEncLen, hi, hs, @eq_comm _ t]
  | done =>
    by_cases hi : i < 10 <;> cases hs : octetSpecified s i <;>
      simp [hostReadObuf, hp, Config.maxEncLen, hi, hs, @eq_comm _ t]

theorem presentInput_next_iff {o : List Byte} {s t : State} :
    presentInput o s = .next t ↔ s.phase ≠ .run ∧ inputWellFormed o = true ∧ t = { s with ibuf := o } := by
  cases h : s.phase <;> by_cases ho : inputWellFormed o = true <;> simp [presentInput, h, ho, eq_comm]

/-- With no operation running the engine has no step and the block stays as it is. -/
theorem engineTurn_of_ready {s : State} (h : s.phase ≠ .run) : engineTurn s = .inr (.next s) := by
  unfold engineTurn
  split <;> simp_all

end Sys2Proof.Machine
end

