-- ==== Sys2Proof/Laws/PerInstr.lean ====
section
/-! SUPPORT. The family of statements made for each instruction. -/

namespace Sys2Proof.Laws.ByteForm

/-- An instruction is one byte of its format: a command code below 4 (30_encoding.md R90), or an octet whose bit 7 tells
its class (R80, R81). -/
def Statement (i : Instr) : Prop :=
  encode i = [encodeByte i] ∧
    match i.format with
    | .cmd2 => (encodeByte i).toNat < 4
    | .wireOctet => (encodeByte i).getLsbD 7 = match i with | .cont _ => true | _ => false

theorem encu : Statement .encu := by simp [Statement, encode, Instr.format, encodeByte]
theorem decu : Statement .decu := by simp [Statement, encode, Instr.format, encodeByte]
theorem encs : Statement .encs := by simp [Statement, encode, Instr.format, encodeByte]
theorem decs : Statement .decs := by simp [Statement, encode, Instr.format, encodeByte]
theorem cont (g : Group) : Statement (.cont g) :=
  ⟨rfl, show (encodeByte (.cont g)).getLsbD 7 = true by revert g; decide⟩
theorem last (g : Group) : Statement (.last g) :=
  ⟨rfl, show (encodeByte (.last g)).getLsbD 7 = false by revert g; decide⟩

end Sys2Proof.Laws.ByteForm
end

