-- ==== Sys2Proof/Laws/Step.lean ====
section
/-! SUPPORT. What one step can do, said once. -/

namespace Sys2Proof.Machine

/-- The state of an encode after one octet is written and counted. -/
def wroteOctet (b : Byte) (s : State) : State :=
  { s with obuf := obufStore s.obuf s.cnt.toNat b, cnt := s.cnt + 1 }

/-- What an engine step does when it answers a next state: `ParseError`, an octet consumed, or an octet emitted. -/
def engineEffect (u t : State) : Prop :=
  (isDecode u.op = true ∧ u.cnt = ilen u ∧ t = raiseParseError u) ∨
  (isDecode u.op = true ∧ u.cnt ≠ ilen u ∧ ∃ b, u.ibuf[u.cnt.toNat]? = some b ∧
    (b.getLsbD 7 = true ∧ t = packGroup (b.setWidth 7) u ∨
      b.getLsbD 7 = false ∧ t = finishDecode (packGroup (b.setWidth 7) u))) ∨
  (isDecode u.op = false ∧ u.cnt.toNat < 10 ∧
    (127#64 < u.mag ∧ t = shiftMagnitude (wroteOctet (tag true (grp u.mag)) u) ∨
      u.mag ≤ 127#64 ∧ t = finishEncode (wroteOctet (tag false (grp u.mag)) u)))

/-- The block's own registers and buffer are the same. -/
def sameBlock (s t : State) : Prop :=
  t.op = s.op ∧ t.val = s.val ∧ t.mag = s.mag ∧ t.cnt = s.cnt ∧ t.phase = s.phase ∧ t.err = s.err ∧ t.ovf = s.ovf ∧
    t.obuf = s.obuf

theorem engineToMove_phase {s u : State} (h : engineToMove s u) : u.phase = s.phase := by
  rcases h with ⟨_, rfl⟩ | ⟨_, _, rfl⟩ | ⟨_, _, rfl⟩ <;> rfl

/-- While an operation runs and the host lets the engine move, the step is the engine's turn. -/
theorem nextTurn_of_engineToMove {s u : State} (h : engineToMove s u) (hp : s.phase = .run) :
    nextTurn s = engineTurn u := by
  rcases h with ⟨hm, rfl⟩ | ⟨rest, hm, rfl⟩ | ⟨rest, hm, rfl⟩ <;> simp [nextTurn, hm, hp]

/-- The engine's turn, run. -/
theorem engineTurn_next_iff {u t : State} (hp : u.phase = .run) :
    (match engineTurn u with
      | .inl (i, v) => exec i v
      | .inr r => r) = .next t ↔ engineEffect u t := by
  unfold engineEffect
  cases hd : isDecode u.op
  · simp only [engineTurn, hp, hd, Bool.false_eq_true, if_false, false_and, false_or, true_and]
    by_cases hm : 127#64 < u.mag
    · rw [octetDue_cont_iff.mpr ⟨hm, rfl⟩, exec, execCont_next_iff]
      simp [hp, hd, hm, BitVec.not_le.mpr hm, wroteOctet]
    · have hm := BitVec.not_lt.mp hm
      rw [octetDue_last_iff.mpr ⟨hm, rfl⟩, exec, execLast_next_iff]
      simp [hp, hd, hm, BitVec.not_lt.mpr hm, wroteOctet]
  · by_cases hc : u.cnt = ilen u
    · simp [engineTurn, hp, hd, hc, @eq_comm _ t]
    · cases hb : u.ibuf[u.cnt.toNat]? with
      | none => simp [engineTurn, hp, hd, hc, ibufRead, inputIndex, hb]
      | some b =>
        simp only [engineTurn, hp, hd, if_true, hc, if_false, ibufRead, inputIndex, hb, decodeOctet]
        cases h7 : b.getLsbD 7
        · simp only [Bool.false_eq_true, if_false, exec, execLast_next_iff, hp, hd, true_and, Option.some.injEq,
            exists_eq_left', h7, false_and, false_or, reduceCtorEq, or_false, and_false, ne_eq, not_false_eq_true, hc]
        · simp only [Bool.true_eq_false, if_true, exec, execCont_next_iff, hp, hd, true_and, Option.some.injEq,
            exists_eq_left', h7, false_and, false_or, or_false, and_false, ne_eq, not_false_eq_true, hc]

/-- What an engine step does. -/
theorem step_engine_iff {s u t : State} (h : engineToMove s u) (hp : s.phase = .run) :
    step s = .next t ↔ engineEffect u t := by
  rw [step, nextTurn_of_engineToMove h hp]
  exact engineTurn_next_iff (by rw [engineToMove_phase h, hp])

/-- The host gives its move and the block does nothing: what is left is the host's side. -/
def hostOnly (s t : State) : Prop :=
  sameBlock s t ∧ ¬ startsNext s ∧ ¬ resetsNext s ∧ (s.phase = .run → t.ibuf = s.ibuf ∧ ¬ ∃ u, engineToMove s u) ∧
    (t.ibuf = s.ibuf ∨ inputWellFormed t.ibuf = true) ∧ t.moves = s.moves.tail

/-- Everything a step can do when it answers a next state: an operation starts, the engine takes a step, the host alone
moves, or the block is reset. -/
theorem step_cases {s t : State} (h : step s = .next t) :
    (∃ code rest, s.moves = .start code :: rest ∧ s.phase ≠ .run ∧
      t = if isDecode code then startDecode code { s with moves := rest } else startEncode code { s with moves := rest }) ∨
    (∃ u, engineToMove s u ∧ s.phase = .run ∧ engineEffect u t) ∨
    hostOnly s t ∨
    (∃ rest, s.moves = .reset :: rest ∧ t = resetBlock { s with moves := rest }) := by
  have quiet : ∀ (m : HostMove) (rest : List HostMove), s.moves = m :: rest →
      (∀ c, m ≠ .start c) → m ≠ .reset → m ≠ .tick → m ≠ .waitDone →
      ∀ v : State, sameBlock s v → v.moves = rest → (s.phase = .run → v.ibuf = s.ibuf) →
      (v.ibuf = s.ibuf ∨ inputWellFormed v.ibuf = true) → hostOnly s v := by
    intro m rest hm h1 h2 h3 h4 v hv hvm hi hw
    refine ⟨hv, ?_, ?_, fun hp => ⟨hi hp, ?_⟩, hw, by rw [hvm, hm]; rfl⟩
    · rintro ⟨c, r, hc⟩; rw [hm] at hc; exact h1 c (by injection hc)
    · rintro ⟨r, hc⟩; rw [hm] at hc; exact h2 (by injection hc)
    · rintro ⟨u, ⟨hc, _⟩ | ⟨r, hc, _⟩ | ⟨r, hc, _⟩⟩ <;> rw [hm] at hc
      · cases hc
      · exact h3 (by injection hc)
      · exact h4 (by injection hc)
  have still : s.phase ≠ .run → ¬ startsNext s → ¬ resetsNext s → ∀ v : State, sameBlock s v → v.ibuf = s.ibuf →
      v.moves = s.moves.tail → hostOnly s v :=
    fun hp h1 h2 v hv hi hm => ⟨hv, h1, h2, fun h => absurd h hp, .inl hi, hm⟩
  by_cases hp : s.phase = .run ∧ ∃ u, engineToMove s u
  · obtain ⟨hp, u, hu⟩ := hp
    exact .inr (.inl ⟨u, hu, hp, (step_engine_iff hu hp).mp h⟩)
  · cases hm : s.moves with
    | nil =>
      have hp : s.phase ≠ .run := fun hr => hp ⟨hr, s, .inl ⟨hm, rfl⟩⟩
      simp only [step, nextTurn, hm, engineTurn_of_ready hp, Host.Outcome.next.injEq] at h
      subst h
      refine .inr (.inr (.inl (still hp ?_ ?_ s ⟨rfl, rfl, rfl, rfl, rfl, rfl, rfl, rfl⟩ rfl (by rw [hm]; rfl))))
      · rintro ⟨c, r, hc⟩; rw [hm] at hc; cases hc
      · rintro ⟨r, hc⟩; rw [hm] at hc; cases hc
    | cons m rest =>
      cases m with
      | start code =>
        left
        refine ⟨code, rest, rfl, ?_⟩
        simp only [step, nextTurn, hm] at h
        rcases decodeCommand_code code with ⟨hc, rfl⟩ | ⟨hc, rfl⟩ | ⟨hc, rfl⟩ | ⟨hc, rfl⟩ <;>
          simp only [hc, exec, execEncu, execDecu, execEncs, execDecs, whenReady_next_iff] at h <;>
          exact ⟨h.1, h.2⟩
      | setValue v =>
        simp only [step, nextTurn, hm, driveValue, Host.Outcome.next.injEq] at h
        subst h
        exact .inr (.inr (.inl (quiet _ _ hm (by simp) (by simp) (by simp) (by simp) _
          ⟨rfl, rfl, rfl, rfl, rfl, rfl, rfl, rfl⟩ rfl (fun _ => rfl) (.inl rfl))))
      | setInput o =>
        simp only [step, nextTurn, hm, presentInput_next_iff] at h
        obtain ⟨h1, h2, rfl⟩ := h
        exact .inr (.inr (.inl (quiet _ _ hm (by simp) (by simp) (by simp) (by simp) _
          ⟨rfl, rfl, rfl, rfl, rfl, rfl, rfl, rfl⟩ rfl (fun hr => absurd hr h1) (.inr h2))))
      | readStatus =>
        simp only [step, nextTurn, hm, hostReadStatus, Host.Outcome.next.injEq] at h
        subst h
        refine .inr (.inr (.inl (quiet _ _ hm (by simp) (by simp) (by simp) (by simp) _ ?_ ?_ ?_ ?_))) <;>
          split <;> simp [sameBlock]
      | readVal =>
        simp only [step, nextTurn, hm, hostReadVal, hostReadWord_next_iff] at h
        obtain ⟨_, ⟨_, rfl⟩ | ⟨_, rfl⟩⟩ := h <;>
        exact .inr (.inr (.inl (quiet _ _ hm (by simp) (by simp) (by simp) (by simp) _
          ⟨rfl, rfl, rfl, rfl, rfl, rfl, rfl, rfl⟩ rfl (fun _ => rfl) (.inl rfl))))
      | readCnt =>
        simp only [step, nextTurn, hm, hostReadCnt, hostReadWord_next_iff] at h
        obtain ⟨_, ⟨_, rfl⟩ | ⟨_, rfl⟩⟩ := h <;>
        exact .inr (.inr (.inl (quiet _ _ hm (by simp) (by simp) (by simp) (by simp) _
          ⟨rfl, rfl, rfl, rfl, rfl, rfl, rfl, rfl⟩ rfl (fun _ => rfl) (.inl rfl))))
      | readObuf i =>
        simp only [step, nextTurn, hm, hostReadObuf_next_iff] at h
        obtain ⟨_, _, ⟨_, rfl⟩ | ⟨_, rfl⟩⟩ := h <;>
        exact .inr (.inr (.inl (quiet _ _ hm (by simp) (by simp) (by simp) (by simp) _
          ⟨rfl, rfl, rfl, rfl, rfl, rfl, rfl, rfl⟩ rfl (fun _ => rfl) (.inl rfl))))
      | reset =>
        simp only [step, nextTurn, hm, Host.Outcome.next.injEq] at h
        exact .inr (.inr (.inr ⟨rest, rfl, h.symm⟩))
      | tick =>
        have hp : s.phase ≠ .run := fun hr => hp ⟨hr, _, .inr (.inl ⟨rest, hm, rfl⟩)⟩
        have h0 : engineTurn { s with moves := rest } = .inr (.next { s with moves := rest }) := engineTurn_of_ready hp
        simp only [step, nextTurn, hm, h0, Host.Outcome.next.injEq] at h
        subst h
        refine .inr (.inr (.inl (still hp ?_ ?_ _ ⟨rfl, rfl, rfl, rfl, rfl, rfl, rfl, rfl⟩ rfl (by rw [hm]; rfl))))
        · rintro ⟨c, r, hc⟩; rw [hm] at hc; cases hc
        · rintro ⟨r, hc⟩; rw [hm] at hc; cases hc
      | waitDone =>
        have hp : s.phase ≠ .run := fun hr => hp ⟨hr, _, .inr (.inr ⟨rest, hm, rfl⟩)⟩
        have ht : t = { s with moves := rest } := by
          cases hq : s.phase <;> simp_all [step, nextTurn]
        subst ht
        refine .inr (.inr (.inl (still hp ?_ ?_ _ ⟨rfl, rfl, rfl, rfl, rfl, rfl, rfl, rfl⟩ rfl (by rw [hm]; rfl))))
        · rintro ⟨c, r, hc⟩; rw [hm] at hc; cases hc
        · rintro ⟨r, hc⟩; rw [hm] at hc; cases hc

end Sys2Proof.Machine
end

