-- ==== Sys2Proof/Laws/Run.lean ====
section
/-! SUPPORT. Runs of several steps. -/

namespace Sys2Proof.Machine

theorem run_zero (s : State) : Host.Core.run Sys2Proof.core 0 s = .next s := rfl

/-- A run of one more step, from the state the first step leaves. -/
theorem run_succ_of_step {s t : State} (h : step s = .next t) (n : Nat) :
    Host.Core.run Sys2Proof.core (n + 1) s = Host.Core.run Sys2Proof.core n t := by
  have h' : Sys2Proof.core.step s = .next t := h
  simp only [Host.Core.run, h']

/-- Runs compose. -/
theorem run_add_of_run {s t : State} {a : Nat} (h : Host.Core.run Sys2Proof.core a s = .next t) (b : Nat) :
    Host.Core.run Sys2Proof.core (a + b) s = Host.Core.run Sys2Proof.core b t := by
  induction a generalizing s with
  | zero =>
    injection h with h
    rw [Nat.zero_add, h]
  | succ a ih =>
    cases hs : step s with
    | next u =>
      rw [run_succ_of_step hs] at h
      rw [show a + 1 + b = (a + b) + 1 by omega, run_succ_of_step hs, ih h]
    | fault f =>
      have hs' : Sys2Proof.core.step s = .fault f := hs
      simp only [Host.Core.run, hs', reduceCtorEq] at h
    | refused r =>
      have hs' : Sys2Proof.core.step s = .refused r := hs
      simp only [Host.Core.run, hs', reduceCtorEq] at h

/-- With no operation running and a host that plans nothing, the machine stays as it is. -/
theorem run_of_ready {s : State} (hm : s.moves = []) (hp : s.phase ≠ .run) (n : Nat) :
    Host.Core.run Sys2Proof.core n s = .next s := by
  have hs : step s = .next s := by simp [step, nextTurn, hm, engineTurn_of_ready hp]
  induction n with
  | zero => rfl
  | succ n ih => rw [run_succ_of_step hs, ih]

end Sys2Proof.Machine
end

