-- ==== Sys2Proof/Tests/Slice0.lean ====
section
/-! SUPPORT. The model's own tests, and a witness for the hypotheses of each statement.
Expected results come from the spec: rows S and T of 95_test_vectors.md, its tables 2.1 to 2.5, and the rules named. -/

namespace Sys2Proof.Tests

open Sys2Proof.Machine

/-! ### Words written out from the encodings (30_encoding.md R80, R90, R91) -/

theorem test_word_encu : decode .cmd2 [0b00000000] = .ok (.encu, []) := by rfl
theorem test_word_decu : decode .cmd2 [0b00000001] = .ok (.decu, []) := by rfl
theorem test_word_encs : decode .cmd2 [0b00000010] = .ok (.encs, []) := by rfl
theorem test_word_decs : decode .cmd2 [0b00000011] = .ok (.decs, []) := by rfl
theorem test_word_cont : decode .wireOctet [0b10101100] = .ok (.cont 0b0101100, []) := by rfl
theorem test_word_last : decode .wireOctet [0b00000010] = .ok (.last 0b0000010, []) := by rfl
theorem test_word_not_a_command : decode .cmd2 [0b00000100] = .error .notACommandCode := by rfl
theorem test_no_byte : decode .wireOctet [] = .error .noByte := by rfl
theorem test_table_words :
    decodeTableWord 8 0x01 = some .decu ∧ decodeTableWord 8 0x80 = some (.cont 0) ∧
    decodeTableWord 8 0x7F = some (.last 127) ∧ decodeTableWord 2 0x04 = none ∧ decodeTableWord 16 0x80 = none := by
  decide

/-! ### WellFormed smoke: the one check there is, the bound on an input (20_memory.md R52) -/

theorem test_input_too_long_is_refused : inputWellFormed (List.replicate (2 ^ 64) 0) = false := by
  rw [← Bool.not_eq_true, inputWellFormed_iff, List.length_replicate]
  omega
theorem test_longest_input_is_well_formed : inputWellFormed (List.replicate (2 ^ 64 - 1) 0) = true := by
  rw [inputWellFormed_iff, List.length_replicate]
theorem test_every_instruction_is_well_formed (i : Instr) : i.wellFormed = true := by
  cases i <;> rfl

/-! ### `OBUF`: an octet that is not listed reads as 0, and writing 0 lists nothing (log entry 8) -/

theorem test_obuf_after_reset : obufRead State.reset.obuf 0 = 0 ∧ obufRead State.reset.obuf 9 = 0 := by decide
theorem test_obuf_store_zero :
    obufStore [(0, 0x07), (1, 0x02)] 0 0x00 = [(1, 0x02)] ∧ obufRead [(1, 0x02)] 0 = 0x00 := by decide
theorem test_obuf_not_canonical :
    Memory.wf [(0, 0x00)] = false ∧ Memory.wf [(1, 0x02), (0, 0x07)] = false ∧ Memory.wf [(10, 0x01)] = false := by decide

/-! ### Primitives (95_test_vectors.md 2.1, 2.2) -/

theorem test_grp : grp 300 = 0x2C ∧ grp 128 = 0 := by decide
theorem test_tag : tag true 0x2C = 0xAC ∧ tag false 127 = 0x7F := by decide
theorem test_untag : untag 0xAC = (true, 0x2C) ∧ untag 0x7F = (false, 127) := by decide
/-- With the next two, the boundary values of the clauses of `PackByGroupNumber`. -/
theorem test_pack_group_8 : pack 0 0x7F 8 = (0x7F00000000000000, false) := by decide
theorem test_pack_group_9 :
    pack 0x7FFFFFFFFFFFFFFF 0x01 9 = (0xFFFFFFFFFFFFFFFF, false) ∧
    pack 0x7FFFFFFFFFFFFFFF 0x02 9 = (0x7FFFFFFFFFFFFFFF, true) := by decide
theorem test_pack_group_10 : pack 5 0x00 10 = (5, false) ∧ pack 5 0x01 10 = (5, true) := by decide
theorem test_zz : zz (-8193) = 16385 ∧ zz 0x8000000000000000 = 0xFFFFFFFFFFFFFFFF ∧ zz 64 = 128 := by decide
theorem test_unzz :
    unzz 0xFFFFFFFFFFFFFFFF = 0x8000000000000000 ∧ unzz 16385 = -8193 ∧ unzz 0xFFFFFFFFFFFFFFFE = 0x7FFFFFFFFFFFFFFF := by
  decide

/-! ### The function level (95_test_vectors.md sections 1, 2.3 to 2.5) -/

theorem test_encode_unsigned_rows :
    encodeUnsigned 0 = [0x00] ∧ encodeUnsigned 127 = [0x7F] ∧ encodeUnsigned 128 = [0x80, 0x01] ∧
    encodeUnsigned 16383 = [0xFF, 0x7F] ∧ encodeUnsigned 624485 = [0xE5, 0x8E, 0x26] := by decide
theorem test_encode_signed_rows :
    encodeSigned (-64) = [0x7F] ∧ encodeSigned 64 = [0x80, 0x01] ∧ encodeSigned (-8193) = [0x81, 0x80, 0x01] ∧
    encodeSigned (-624485) = [0xC9, 0x9D, 0x4C] := by decide
theorem test_decode_rows :
    decodeUnsigned [0xAC, 0x02, 0x55] = .okUnsigned 300 2 false ∧ decodeSigned [0xAC, 0x02, 0x55] = .okSigned 150 2 false ∧
    decodeSigned [0xE5, 0x8E, 0x26] = .okSigned (-312243) 3 false ∧
    decodeUnsigned [0x81, 0x00] = .okUnsigned 1 2 false ∧ decodeSigned [0x81, 0x00] = .okSigned (-1) 2 false := by decide
theorem test_decode_errors :
    decodeUnsigned [] = .err .malformedOrTruncated ∧
    decodeSigned (List.replicate 10 0xFF) = .err .malformedOrTruncated := by decide

/-! ### States to test on -/

/-- After reset, with a value operand and an input driven. -/
def ready (value : Word) (ibuf : List Byte) : State := { State.reset with value := value, ibuf := ibuf }

/-- A running operation, with `MAG` and `CNT` as a trace of 95_test_vectors.md shows them, and its operand in `VAL`. -/
def running (op : Code) (val mag cnt : Word) (ibuf : List Byte) : State :=
  { State.reset with op := op, val := val, mag := mag, cnt := cnt, phase := .run, ibuf := ibuf }

/-- A finished operation. -/
def finished (op : Code) (val mag cnt : Word) (err : Bool) (obuf : Memory) : State :=
  { State.reset with op := op, val := val, mag := mag, cnt := cnt, phase := .done, err := err, obuf := obuf }

/-- A state whose host plans these moves. -/
def planning (moves : List HostMove) (s : State) : State := { s with moves := moves }

/-! ### One step per instruction (traces T1, T2, T6, T7, T9) -/

theorem test_encu_start : exec .encu (ready 300 []) = .next { running 0b00 300 0x12C 0 [] with value := 300 } := by rfl
theorem test_encs_start :
    exec .encs (ready (-8193) []) = .next { running 0b10 (-8193) 0x4001 0 [] with value := -8193 } := by rfl
theorem test_decu_start : exec .decu (ready 0 [0xAC, 0x02, 0x55]) = .next (running 0b01 0 0 0 [0xAC, 0x02, 0x55]) := by rfl
theorem test_decs_start : exec .decs (ready 0 [0x01]) = .next (running 0b11 0 0 0 [0x01]) := by rfl

/-- T1, first engine step. -/
theorem test_cont_emitted :
    step (running 0b00 300 300 0 []) = .next { running 0b00 300 2 1 [] with obuf := [(0, 0xAC)] } := by rfl
/-- T1, second engine step. -/
theorem test_last_emitted :
    step { running 0b00 300 2 1 [] with obuf := [(0, 0xAC)] } =
      .next (finished 0b00 300 2 2 false [(0, 0xAC), (1, 0x02)]) := by rfl
/-- T6, first engine step. -/
theorem test_cont_consumed :
    step (running 0b01 0 0 0 [0xAC, 0x02, 0x55]) = .next (running 0b01 0 0x2C 1 [0xAC, 0x02, 0x55]) := by rfl
/-- T9, last engine step: group 2 at index 9 is lost, the value wraps. -/
theorem test_last_consumed_overflow :
    exec (.last 0x02) (running 0b01 0 0x7FFFFFFFFFFFFFFF 9 []) =
      .next { finished 0b01 0x7FFFFFFFFFFFFFFF 0x7FFFFFFFFFFFFFFF 10 false [] with ovf := true } := by rfl
/-- T7, last engine step: the input is exhausted. -/
theorem test_parse_error :
    step (running 0b01 0 0 2 [0x80, 0x80]) = .next { running 0b01 0 0 2 [0x80, 0x80] with err := true, phase := .done } := by
  rfl

/-! ### Table words placed right after reset run as the next step -/

theorem test_fetch_encu : step (State.reset.withFetchWord 8 0x00) = exec .encu State.reset := by rfl
theorem test_fetch_decu : step (State.reset.withFetchWord 8 0x01) = exec .decu State.reset := by rfl
theorem test_fetch_encs : step (State.reset.withFetchWord 8 0x02) = exec .encs State.reset := by rfl
theorem test_fetch_decs : step (State.reset.withFetchWord 8 0x03) = exec .decs State.reset := by rfl
theorem test_fetch_cont :
    step (State.reset.withFetchWord 8 0xAC) = exec (.cont 0x2C) (running 0b01 0 0 0 [0xAC]) := by rfl
theorem test_fetch_last :
    step (State.reset.withFetchWord 8 0x07) = exec (.last 0x07) (running 0b01 0 0 0 [0x07]) := by rfl

/-! ### Witnesses: encoding and codec statements -/

theorem witness_DecodeAndEncodeAgree :
    (Instr.cont 127).wellFormed = true ∧ decode .cmd2 [0x03, 0x09] = .ok (.decs, [0x09]) ∧
    decode .wireOctet [0x00, 0x80] = .ok (.last 0, [0x80]) := ⟨rfl, rfl, rfl⟩
theorem witness_PackIsAnAddition :
    (127 : Word).toNat < 2 ^ (7 * 1) ∧ (0x7FFFFFFFFFFFFFFF : Word).toNat < 2 ^ (7 * 9) := by decide
theorem witness_ZigZagClosedForm :
    0 ≤ (0 : Word).toInt ∧ 0 ≤ (0x7FFFFFFFFFFFFFFF : Word).toInt ∧ (-1 : Word).toInt < 0 ∧
    (0x8000000000000000 : Word).toInt < 0 := by decide
theorem witness_UnZigZagInvertsZigZag :
    (0xFFFFFFFFFFFFFFFE : Word).toNat % 2 = 0 ∧ (0xFFFFFFFFFFFFFFFF : Word).toNat % 2 = 1 := by decide
theorem witness_ZigZagKeepsSmallValuesSmall :
    (63 : Word).toInt.natAbs < (-64 : Word).toInt.natAbs := by decide
theorem witness_EncodingIsMinimal : (128 : Word) ≠ 0 ∧ (genc 128).getLast? = some 0x01 := by decide
theorem witness_EncodingLengthTable :
    (genc 127).length = 1 ∧ (genc 128).length = 2 ∧ (genc 0x7FFFFFFFFFFFFFFF).length = 9 ∧
    (genc 0x8000000000000000).length = 10 := by decide
theorem witness_SignedLengthTable :
    (encodeSigned (-64)).length = 1 ∧ (encodeSigned 64).length = 2 ∧ (encodeSigned 0x8000000000000000).length = 10 := by
  decide
theorem witness_GroupDecoderByPosition :
    ([0x80, 0x01, 0xAA] : List Byte)[1].getLsbD 7 = false ∧
    ∀ (j : Nat) (hj : j < 1), (([0x80, 0x01, 0xAA] : List Byte)[j]'(Nat.lt_trans hj (by decide))).getLsbD 7 = true := by
  refine ⟨by decide, fun j hj => ?_⟩
  obtain rfl : j = 0 := by omega
  exact (by decide : (0x80 : Byte).getLsbD 7 = true)
theorem witness_OperationsAreTotal : ∃ b ∈ ([0x80, 0x7F] : List Byte), b.toNat < 0x80 := by decide
theorem witness_OverflowOnlyFromHighGroups :
    gdec (List.replicate 9 0xFF ++ [0x02]) = .ok ⟨0x7FFFFFFFFFFFFFFF, 10, true⟩ ∧
    gdec (List.replicate 10 0x80 ++ [0x01]) = .ok ⟨0, 11, true⟩ ∧
    gdec (List.replicate 9 0xFF ++ [0x01]) = .ok ⟨0xFFFFFFFFFFFFFFFF, 10, false⟩ := ⟨rfl, rfl, rfl⟩
theorem witness_TruncationFails :
    0 < (genc 0).length ∧ 1 < (encodeUnsigned 128).length ∧ 2 < (encodeSigned (-8193)).length ∧
    genc 300 ++ [] = genc 300 := by decide
theorem witness_ConsumedLengthIsCorrect : terminatorIndex [0xAC, 0x02] = some (([0xAC, 0x02] : List Byte).length - 1) := by
  decide
theorem witness_CanonicalFormIsShortest :
    gdec [0x80, 0x00] = .ok ⟨0, 2, false⟩ ∧ gdec [0xAC, 0x02, 0x55] = .ok ⟨300, 2, false⟩ := ⟨rfl, rfl⟩

/-! ### Witnesses: instruction statements -/

theorem witness_StartsFromIdleAndDone :
    (ready 300 []).phase ≠ .run ∧ (finished 0b01 0 0 0 true []).phase ≠ .run := by decide
theorem witness_StartsAreRefusedWhileRunning : (running 0b01 0 0 0 []).phase = .run := by decide
theorem witness_CommandFrame :
    exec (decodeCommand 0b01) (ready 0 [0x01]) = .next (running 0b01 0 0 0 [0x01]) := by rfl
theorem witness_EncodeEmitsTheOctetDue :
    (running 0b00 300 128 9 []).phase = .run ∧ isDecode (running 0b00 300 128 9 []).op = false ∧
    (running 0b00 300 128 9 []).cnt.toNat ≤ 9 ∧ 127 < (running 0b00 300 128 9 []).mag.toNat ∧
    (running 0b00 300 127 0 []).cnt.toNat ≤ 9 ∧ (running 0b00 300 127 0 []).mag.toNat ≤ 127 := by decide
theorem witness_DecodeConsumesTheOctet :
    (running 0b11 0 0 0 []).phase = .run ∧ isDecode (running 0b11 0 0 0 []).op = true := by decide
theorem witness_OctetsStopHere :
    exec (.cont 0) (ready 0 []) = .refused .noOperationRunning ∧
    exec (.last 0) (finished 0b01 0 0 0 false []) = .refused .noOperationRunning ∧
    exec (.cont 127) (running 0b00 0 127 0 []) = .refused .octetNotDue ∧
    exec (.last 0) (running 0b00 0 128 0 []) = .refused .octetNotDue ∧
    exec (.cont 0) (running 0b00 0 128 10 []) = .fault .obufIndex ∧
    exec (.last 127) (running 0b00 0 127 10 []) = .fault .obufIndex := ⟨rfl, rfl, rfl, rfl, rfl, rfl⟩
theorem witness_EmittedOctetFrame :
    isDecode (running 0b10 0 1 2 []).op = false ∧
    exec (.last 1) (running 0b10 0 1 2 []) = .next (finished 0b10 0 1 3 false [(2, 0x01)]) := ⟨rfl, rfl⟩
theorem witness_ConsumedOctetFrame :
    isDecode (running 0b01 0 0x2C 1 []).op = true ∧
    exec (.last 2) (running 0b01 0 0x2C 1 []) = .next (finished 0b01 300 300 2 false []) := ⟨rfl, rfl⟩

/-! ### Witnesses: step statements -/

/-- The three ways the host lets the engine move. -/
theorem witness_engineToMove (s : State) (rest : List HostMove) :
    engineToMove { s with moves := [] } { s with moves := [] } ∧
    engineToMove { s with moves := .tick :: rest } { s with moves := rest } ∧
    engineToMove { s with moves := .waitDone :: rest } { s with moves := .waitDone :: rest } :=
  ⟨.inl ⟨rfl, rfl⟩, .inr (.inl ⟨rest, rfl, rfl⟩), .inr (.inr ⟨rest, rfl, rfl⟩)⟩
theorem witness_StepRunsTheDecodedInstruction :
    (planning [.start 0b10] State.reset).moves = .start 0b10 :: [] ∧
    (running 0b01 0 0x2C 1 [0xAC, 0x02]).cnt ≠ ilen (running 0b01 0 0x2C 1 [0xAC, 0x02]) ∧
    (running 0b01 0 0x2C 1 [0xAC, 0x02]).ibuf[inputIndex (running 0b01 0 0x2C 1 [0xAC, 0x02])]? = some 0x02 ∧
    isDecode (running 0b00 300 300 0 []).op = false := by decide
theorem witness_EncodeStep :
    engineToMove (running 0b00 300 128 9 []) (running 0b00 300 128 9 []) ∧
    (running 0b00 300 128 9 []).phase = .run ∧ isDecode (running 0b00 300 128 9 []).op = false ∧
    (running 0b00 300 128 9 []).cnt.toNat ≤ 9 ∧ 127 < (running 0b00 300 128 9 []).mag.toNat ∧
    ¬ 127 < (running 0b00 300 127 9 []).mag.toNat := by
  refine ⟨.inl ⟨rfl, rfl⟩, ?_⟩
  decide
theorem witness_DecodeStep :
    engineToMove (running 0b01 0 0 1 [0x80, 0x80]) (running 0b01 0 0 1 [0x80, 0x80]) ∧
    (running 0b01 0 0 2 [0x80, 0x80]).cnt = ilen (running 0b01 0 0 2 [0x80, 0x80]) ∧
    (running 0b01 0 0 0 []).cnt = ilen (running 0b01 0 0 0 []) ∧
    (running 0b01 0 0 1 [0x80, 0x80]).cnt ≠ ilen (running 0b01 0 0 1 [0x80, 0x80]) ∧
    (running 0b01 0 0 1 [0x80, 0x80]).ibuf[(running 0b01 0 0 1 [0x80, 0x80]).cnt.toNat]? = some 0x80 := by
  refine ⟨.inl ⟨rfl, rfl⟩, ?_⟩
  decide
theorem witness_EngineFaultsOnlyAtAbsentIndices :
    step (running 0b01 0 0 1 []) = .fault .ibufIndex ∧ step (running 0b00 0 0 10 []) = .fault .obufIndex ∧
    step (running 0b00 1 1 9 []) = .next (finished 0b00 1 1 10 false [(9, 0x01)]) := ⟨rfl, rfl, rfl⟩
theorem witness_PhaseTransitions :
    step (planning [.start 0b00] State.reset) = .next (running 0b00 0 0 0 []) ∧
    step (planning [.reset] (running 0b00 0 0 0 [])) = .next State.reset ∧
    step (planning [.readStatus] (running 0b00 0 0 0 [])) =
      .next { running 0b00 0 0 0 [] with got := [.status 0b0100] } ∧
    ¬ resetsNext (running 0b00 0 0 0 []) ∧ ¬ startsNext (running 0b00 0 0 0 []) :=
  ⟨rfl, rfl, rfl, (by rintro ⟨_, h⟩; cases h), (by rintro ⟨_, _, h⟩; cases h)⟩
/-- A decode overflows, an encode writes `OBUF`, a decode fails: each clause of the writers' statement. -/
theorem witness_RegisterWriters :
    step { running 0b01 0 0 1 [0xFF, 0x01] with ovf := true } =
      .next { finished 0b01 0x80 0x80 2 false [] with ovf := true, ibuf := [0xFF, 0x01] } ∧
    step (running 0b00 7 7 0 []) = .next (finished 0b00 7 7 1 false [(0, 0x07)]) ∧
    step (running 0b11 0 0 0 []) = .next (finished 0b11 0 0 0 true []) := ⟨rfl, rfl, rfl⟩
theorem witness_ResultIsHeld :
    step (planning [.tick] (finished 0b01 300 300 2 false [])) = .next (finished 0b01 300 300 2 false []) ∧
    step (planning [.setValue 9] (finished 0b01 300 300 2 false [])) =
      .next { finished 0b01 300 300 2 false [] with value := 9 } := ⟨rfl, rfl⟩
theorem witness_OperandIsLatched :
    (planning [.setValue 5] (running 0b00 300 300 0 [])).moves = .setValue 5 :: [] := rfl
theorem witness_ResetFromAnyState : (planning [.reset] (running 0b00 300 300 0 [])).moves = .reset :: [] := rfl
theorem witness_StatusIsReadable :
    endedInError (planning [.readStatus] (finished 0b00 7 7 1 false [(0, 0x07)])) = false ∧
    endedInError (planning [.readStatus] (finished 0b01 0 0 0 true [])) = true := by decide
theorem witness_ResultsAreReadableWhenDone :
    step (planning [.readVal] (running 0b00 7 7 0 [])) = .refused .readWhileRunning ∧
    step (planning [.readVal] (finished 0b01 300 300 2 false [])) =
      .next { finished 0b01 300 300 2 false [] with got := [.val 300] } ∧
    step (planning [.readCnt] (finished 0b00 7 7 1 false [(0, 0x07)])) =
      .next { finished 0b00 7 7 1 false [(0, 0x07)] with got := [.cnt 1] } ∧
    step (planning [.readObuf 0] (finished 0b00 7 7 1 false [(0, 0x07)])) =
      .next { finished 0b00 7 7 1 false [(0, 0x07)] with got := [.octet 0x07] } ∧
    step (planning [.readObuf 9] (finished 0b00 7 7 10 false [(9, 0x01)])) =
      .next { finished 0b00 7 7 10 false [(9, 0x01)] with got := [.octet 0x01] } ∧
    step (planning [.readObuf 10] State.reset) = .fault .obufIndex := ⟨rfl, rfl, rfl, rfl, rfl, rfl⟩
theorem witness_InputIsStableWhileRunning :
    step (planning [.setInput [0x01]] (running 0b01 0 0 0 [])) = .refused .inputChangedWhileRunning ∧
    step (planning [.setInput [0x01]] State.reset) = .next (ready 0 [0x01]) ∧
    (List.replicate (2 ^ 64 - 1) (0 : Byte)).length ≤ 2 ^ 64 - 1 ∧
    2 ^ 64 - 1 < (List.replicate (2 ^ 64) (0 : Byte)).length := by
  refine ⟨rfl, rfl, ?_, ?_⟩
  · rw [List.length_replicate]
  · rw [List.length_replicate]; omega

/-! ### Witnesses: whole operations, invariants, safety -/

theorem witness_EncodeComputesItsFunction :
    (planning [.start (if true then 0b10 else 0b00)] (ready (-8193) [])).phase ≠ .run ∧
    (planning [.start (if true then 0b10 else 0b00)] (ready (-8193) [])).moves = [.start 0b10] := by decide
theorem witness_DecodeComputesItsFunction :
    (planning [.start 0b01] (ready 0 [0x80, 0x80])).phase ≠ .run ∧
    (planning [.start 0b01] (ready 0 [0x80, 0x80])).moves = [.start (if false then 0b11 else 0b01)] ∧
    (planning [.start 0b01] (ready 0 [0x80, 0x80])).ibuf.length ≤ 2 ^ 64 - 1 := by decide
theorem witness_IndependenceFromEarlierState :
    (planning [.start 0b10] (ready 5 [0x01])).phase ≠ .run ∧
    (planning [.start 0b10] { finished 0b01 1 2 3 true [(4, 0x05)] with value := 5, ibuf := [0x01] }).phase ≠ .run ∧
    (planning [.start 0b10] (ready 5 [0x01])).value =
      (planning [.start 0b10] { finished 0b01 1 2 3 true [(4, 0x05)] with value := 5, ibuf := [0x01] }).value ∧
    (planning [.start 0b10] (ready 5 [0x01])).ibuf =
      (planning [.start 0b10] { finished 0b01 1 2 3 true [(4, 0x05)] with value := 5, ibuf := [0x01] }).ibuf ∧
    (planning [.start 0b10] (ready 5 [0x01])).ibuf.length ≤ 2 ^ 64 - 1 := by decide
theorem witness_DecodeNeverLooksPastItsValue :
    isDecode 0b11 = true ∧ gdec (ready 0 [0xAC, 0x02, 0x55]).ibuf = .ok ⟨300, 2, false⟩ ∧
    ([0xAC, 0x02] : List Byte).take 2 = ([0xAC, 0x02, 0x55] : List Byte).take 2 := ⟨rfl, rfl, rfl⟩

/-- A decode in progress that meets the invariant, in the middle of its input. -/
theorem witness_Inv_running_decode : Inv (running 0b01 0 0x2C 1 [0xAC, 0x02, 0x55]) :=
  ⟨by decide, by decide, rfl, by decide, by decide, by decide, by decide⟩
/-- An encode in progress that meets the invariant, after its first octet (trace T1). -/
theorem witness_Inv_running_encode : Inv { running 0b00 300 2 1 [] with obuf := [(0, 0xAC)] } := by
  refine ⟨by decide, by decide, rfl, rfl, by decide, by decide, ?_⟩
  intro i hi
  have hi : i < 1 := hi
  obtain rfl : i = 0 := by omega
  rfl
/-- A finished encode that meets the invariant. -/
theorem witness_FinishedEncodeIsRight : Inv (finished 0b00 7 7 1 false [(0, 0x07)]) ∧
    (finished 0b00 7 7 1 false [(0, 0x07)]).phase = .done ∧ isDecode (finished 0b00 7 7 1 false [(0, 0x07)]).op = false := by
  refine ⟨⟨by decide, by decide, rfl, rfl, by decide, ?_⟩, rfl, rfl⟩
  intro i hi
  have hi : i < 1 := hi
  obtain rfl : i = 0 := by omega
  rfl
theorem witness_EveryOperationEnds :
    (running 0b01 0 0x2C 1 [0xAC, 0x02, 0x55]).phase = .run ∧ (running 0b01 0 0x2C 1 [0xAC, 0x02, 0x55]).moves = [] := by
  decide
theorem witness_StepKeepsTheInvariant :
    step (running 0b01 0 0x2C 1 [0xAC, 0x02, 0x55]) =
      .next { finished 0b01 300 300 2 false [] with ibuf := [0xAC, 0x02, 0x55] } := by rfl
theorem witness_DutifulHostIsNeverStopped :
    keepsDuties (decide (State.reset.phase = .run))
      [.setInput [0x80], .start 0b11, .readStatus, .setValue 9, .tick, .waitDone, .readVal, .readObuf 9, .start 0b00,
        .reset] = true ∧
    Inv (planning [.setInput [0x80], .start 0b11, .readStatus, .setValue 9, .tick, .waitDone, .readVal, .readObuf 9,
      .start 0b00, .reset] State.reset) ∧
    keepsDuties true [.start 0b00] = false :=
  ⟨by decide, ⟨by decide, by decide, rfl, rfl⟩, by decide⟩

end Sys2Proof.Tests
end

/-! PROOFS. The group codec (40_group_codec.md): its bit-level primitives, `GENC` and `GDEC` as functions, and the two
engine steps. -/

namespace Sys2Proof.Machine

/-! ### `GRP`, `TAG` and `UNTAG` -/

/-- Settles O4. -/
theorem grpIsTheLowSevenBits : Obligations.GrpIsTheLowSevenBits := grp_toNat

theorem untag_flag_toNat (b : Byte) : (untag b).1.toNat = b.toNat / 128 := by
  have hlt := b.isLt
  have hflag := octet_flag_iff b
  change (b.getLsbD 7).toNat = b.toNat / 128
  cases h : b.getLsbD 7
  · have : ¬ 0x80 ≤ b.toNat := fun hle => Bool.false_ne_true (h.symm.trans (hflag.mpr hle))
    simp only [Bool.toNat_false]
    omega
  · have := hflag.mp h
    simp only [Bool.toNat_true]
    omega

theorem untag_tag (c : Bool) (g : Group) : untag (tag c g) = (c, g) :=
  Prod.ext (tag_flag c g) (BitVec.eq_of_toNat_eq ((octet_group_toNat _).trans (tag_group c g)))

/-- Settles O5: each half is a fact about one octet, and the round trips compare flag and group. -/
theorem tagAndUntagAreInverse : Obligations.TagAndUntagAreInverse :=
  ⟨fun c g => ⟨tag_toNat c g, untag_tag c g⟩,
    fun b => ⟨untag_flag_toNat b, octet_group_toNat b, tag_untag b⟩⟩

/-! ### `GENC` -/

/-- One octet per unit of fuel, and the last. -/
theorem gencUpTo_length_le (n : Nat) (m : Word) : (gencUpTo n m).length ≤ n + 1 := by
  induction n generalizing m with
  | zero => simp [gencUpTo]
  | succ n ih =>
    rw [gencUpTo]
    split
    · simpa using ih (shr64 m 7)
    · simp

theorem genc_length_pos (m : Word) : 1 ≤ (genc m).length := List.length_pos_iff.mpr (gencUpTo_ne_nil 9 m)

theorem genc_length_le (m : Word) : (genc m).length ≤ 10 := gencUpTo_length_le 9 m

theorem genc_of_le {m : Word} (h : ¬ 127 < m.toNat) : genc m = [tag false (grp m)] := by
  simp [genc, gencUpTo, continues_eq, h]

/-- The fuel left after one octet is enough, since seven bits of the magnitude are gone. -/
theorem genc_of_gt {m : Word} (h : 127 < m.toNat) : genc m = tag true (grp m) :: genc (shr64 m 7) := by
  have hlt : (shr64 m 7).toNat < 2 ^ (7 * (8 + 1)) := by
    rw [shr64_toNat]
    have := m.isLt
    omega
  have hfuel : genc (shr64 m 7) = gencUpTo 8 (shr64 m 7) := gencUpTo_fuel hlt 1
  rw [hfuel, genc, gencUpTo, continues_eq, if_pos (decide_eq_true h)]

/-- `shr64(m, 7) = m div 128`, as a word. -/
theorem shr64_seven (m : Word) : shr64 m 7 = BitVec.ofNat 64 (m.toNat / 128) := by
  rw [show 128 = 2 ^ 7 from rfl, ← shr64_toNat, BitVec.ofNat_toNat, BitVec.setWidth_eq]

/-- Settles O14: the recursion by whether the magnitude exceeds 127. -/
theorem groupEncoderRecursion : Obligations.GroupEncoderRecursion := by
  intro m
  refine ⟨genc_length_pos m, genc_length_le m, ?_⟩
  split
  case isTrue h => rw [genc_of_gt h, shr64_seven]
  case isFalse h => exact genc_of_le h

/-! ### `GDEC` -/

/-- `GDEC` fails exactly where there is no terminating octet. -/
theorem gdec_error_iff {s : List Byte} : gdec s = .error .malformedOrTruncated ↔ terminatorIndex s = none := by
  cases h : terminatorIndex s <;> simp [gdec, h]

theorem gdec_of_terminatorIndex {s : List Byte} {k : Nat} (h : terminatorIndex s = some k) :
    gdec s = .ok
      { mag := BitVec.ofNat 64 (rawMagnitude (s.take (k + 1)))
        consumed := k + 1
        ovf := decide (2 ^ 64 ≤ rawMagnitude (s.take (k + 1))) } := by
  simp only [gdec, h]

/-- The least index with flag 0 is the terminator's. -/
theorem terminatorIndex_of_flags {s : List Byte} {k : Nat} (hk : k < s.length) (hlast : s[k].getLsbD 7 = false)
    (hcont : ∀ (j : Nat) (hj : j < k), s[j].getLsbD 7 = true) : terminatorIndex s = some k := by
  refine terminatorIndex_eq_some.mpr ⟨s.take k, s[k], s.drop (k + 1), ?_, ?_, hlast, ?_⟩
  · rw [← List.drop_eq_getElem_cons hk, List.take_append_drop]
  · exact List.length_take_of_le hk.le
  · intro b hb
    obtain ⟨j, hj, rfl⟩ := List.mem_take_iff_getElem.mp hb
    exact hcont j (by omega)

/-- The recursive raw magnitude of the first `n` octets is the sum of their weighted groups (R82, R116). -/
theorem rawMagnitude_take_eq_sum (s : List Byte) {n : Nat} (hn : n ≤ s.length) :
    rawMagnitude (s.take n) = ∑ i ∈ Finset.range n, (s[i]?.getD 0).toNat % 128 * 2 ^ (7 * i) := by
  induction n with
  | zero => rfl
  | succ n ih =>
    rw [List.take_succ_eq_append_getElem hn, rawMagnitude_concat, ih (by omega), Finset.sum_range_succ,
      List.length_take_of_le (by omega), List.getElem?_eq_getElem hn, Option.getD_some]

/-- Settles O18: the flags give the terminator's index, and the sum is the raw magnitude up to it. -/
theorem groupDecoderByPosition : Obligations.GroupDecoderByPosition := by
  refine ⟨fun s => gdec_error_iff.trans terminatorIndex_eq_none, fun s k hk hlast hcont => ?_⟩
  rw [← rawMagnitude_take_eq_sum s hk]
  exact gdec_of_terminatorIndex (terminatorIndex_of_flags hk hlast hcont)

/-! ### `ENC_STEP` and `DEC_STEP` -/

/-- Letting the engine move uses up a move of the host at most. -/
theorem engineToMove_frame {s u : State} (h : engineToMove s u) : ∃ rest, u = { s with moves := rest } := by
  rcases h with ⟨_, rfl⟩ | ⟨rest, _, rfl⟩ | ⟨_, _, rfl⟩
  exacts [⟨_, rfl⟩, ⟨rest, rfl⟩, ⟨_, rfl⟩]

theorem Inv.encodeRunning {s : State} (h : Inv s) (hp : s.phase = .run) (hd : isDecode s.op = false) :
    encodeRunning s := by
  obtain ⟨_, _, h⟩ := h
  simpa [hp, hd] using h

theorem Inv.encodeDone {s : State} (h : Inv s) (hp : s.phase = .done) (hd : isDecode s.op = false) :
    encodeDone s := by
  obtain ⟨_, _, h⟩ := h
  simpa [hp, hd] using h

/-- A running encode that meets the invariant owes an octet, so its index is inside `OBUF`. -/
theorem encodeRunning_cnt_le {s : State} (h : encodeRunning s) : s.cnt.toNat ≤ 9 := by
  obtain ⟨_, _, hcnt, _⟩ := h
  have := genc_length_le (encodeMagnitude s)
  omega

/-- `ENC_STEP` (R115) by the loop test. -/
theorem step_encode {s t : State} (h : engineToMove s t) (hp : s.phase = .run) (hd : isDecode s.op = false)
    (hc : s.cnt.toNat ≤ 9) :
    (127 < s.mag.toNat → step s = .next (shiftMagnitude (wroteOctet (tag true (grp s.mag)) t))) ∧
    (¬ 127 < s.mag.toNat → step s = .next (finishEncode (wroteOctet (tag false (grp s.mag)) t))) := by
  simp only [step_engine_iff h hp]
  obtain ⟨rest, rfl⟩ := engineToMove_frame h
  have hidx : s.cnt.toNat < 10 := by omega
  exact ⟨fun hm => .inr (.inr ⟨hd, hidx, .inl ⟨hm, rfl⟩⟩),
    fun hm => .inr (.inr ⟨hd, hidx, .inr ⟨Nat.le_of_not_lt hm, rfl⟩⟩)⟩

/-- Settles O37: the step is `step_encode`; the bound on `CNT` and the flags are read off the invariant. -/
theorem encodeStep : Obligations.EncodeStep := by
  refine ⟨fun s t h hp hd hc => ?_, fun s hi hp hd => encodeRunning_cnt_le (hi.encodeRunning hp hd), fun s hi hp hd => ?_⟩
  · obtain ⟨hcont, hlast⟩ := step_encode h hp hd hc
    obtain ⟨rest, rfl⟩ := engineToMove_frame h
    split
    case isTrue hm => exact hcont hm
    case isFalse hm => exact hlast hm
  · obtain ⟨herr, hovf, _⟩ := hi.encodeDone hp hd
    exact ⟨herr, hovf⟩

/-- `DEC_STEP` on an exhausted input (R117): `ParseError`. -/
theorem step_decode_exhausted {s t : State} (h : engineToMove s t) (hp : s.phase = .run) (hd : isDecode s.op = true)
    (hc : s.cnt = ilen s) : step s = .next (raiseParseError t) := by
  rw [step_engine_iff h hp]
  obtain ⟨rest, rfl⟩ := engineToMove_frame h
  exact .inl ⟨hd, hc, rfl⟩

/-- `DEC_STEP` on an octet (R117), by its flag. -/
theorem step_decode_octet {s t : State} {b : Byte} (h : engineToMove s t) (hp : s.phase = .run)
    (hd : isDecode s.op = true) (hc : s.cnt ≠ ilen s) (hb : s.ibuf[s.cnt.toNat]? = some b) :
    ((untag b).1 = true → step s = .next (packGroup (untag b).2 t)) ∧
    ((untag b).1 = false → step s = .next (finishDecode (packGroup (untag b).2 t))) := by
  simp only [step_engine_iff h hp]
  obtain ⟨rest, rfl⟩ := engineToMove_frame h
  exact ⟨fun hf => .inr (.inl ⟨hd, hc, b, hb, .inl ⟨hf, rfl⟩⟩),
    fun hf => .inr (.inl ⟨hd, hc, b, hb, .inr ⟨hf, rfl⟩⟩)⟩

/-- Settles O38: exhaustion first, then the octet at `CNT` by its flag. -/
theorem decodeStep : Obligations.DecodeStep := by
  intro s t h hp hd
  refine ⟨step_decode_exhausted h hp hd, fun b hc hb => ?_⟩
  obtain ⟨hcont, hlast⟩ := step_decode_octet h hp hd hc hb
  obtain ⟨rest, rfl⟩ := engineToMove_frame h
  split
  case isTrue hf => exact hcont hf
  case isFalse hf => exact hlast (Bool.eq_false_of_not_eq_true hf)

end Sys2Proof.Machine

/-! PROOFS. The signed codec (42_signed_varint.md): the zig-zag transform. -/

namespace Sys2Proof.Machine

/-! ### The two shifts of `ZZ` -/

/-- A left shift by 1 doubles modulo `2^64` (44_arithmetic_laws_and_invariants.md R221). -/
theorem shl64_one_toNat (n : Word) : (shl64 n 1).toNat = 2 * n.toNat % 2 ^ 64 := by
  rw [shl64, BitVec.toNat_shiftLeft, Nat.shiftLeft_eq, pow_one, Nat.mul_comm]

/-- The arithmetic shift by 63 is the floor of the signed value by `2^63` (R222). -/
theorem sar64_63_eq_floor (n : Word) : sar64 n 63 = BitVec.ofInt 64 (n.toInt / 2 ^ 63) := by
  rw [sar64, BitVec.sshiftRight_eq, Int.shiftRight_eq_div_pow, Nat.cast_pow, Nat.cast_ofNat]

theorem sar64_63_of_nonneg {n : Word} (h : 0 ≤ n.toInt) : sar64 n 63 = 0 := by
  have hlt := n.toInt_lt
  have hfloor : n.toInt / 2 ^ 63 = 0 := by omega
  rw [sar64_63_eq_floor, hfloor]
  rfl

theorem sar64_63_of_neg {n : Word} (h : n.toInt < 0) : sar64 n 63 = BitVec.allOnes 64 := by
  have hle := n.le_toInt
  have hfloor : n.toInt / 2 ^ 63 = -1 := by omega
  rw [sar64_63_eq_floor, hfloor]
  rfl

/-! ### `ZZ` by the sign of its operand -/

theorem zz_of_nonneg {n : Word} (h : 0 ≤ n.toInt) : zz n = shl64 n 1 := by
  rw [zz, sar64_63_of_nonneg h]
  exact BitVec.xor_zero

theorem zz_of_neg {n : Word} (h : n.toInt < 0) : zz n = ~~~ shl64 n 1 := by
  rw [zz, sar64_63_of_neg h, BitVec.xor_allOnes]

/-- Doubling a value below `2^63` loses no bit. -/
theorem zz_toNat_of_nonneg {n : Word} (h : 0 ≤ n.toInt) : ((zz n).toNat : Int) = 2 * n.toInt := by
  have hcond := n.toInt_eq_toNat_cond
  rw [zz_of_nonneg h, shl64_one_toNat]
  omega

/-- The complement of the doubled value: the lost bit 63 is the `2^64` that two's complement adds. -/
theorem zz_toNat_of_neg {n : Word} (h : n.toInt < 0) : ((zz n).toNat : Int) = -2 * n.toInt - 1 := by
  have hcond := n.toInt_eq_toNat_cond
  have hlt := n.isLt
  rw [zz_of_neg h, BitVec.toNat_not, shl64_one_toNat]
  omega

/-- The operand read off its image: the parity tells the sign, and the half the value (R160). -/
theorem toInt_eq_of_zz (n : Word) :
    n.toInt = if (zz n).toNat % 2 = 0 then ((zz n).toNat : Int) / 2 else -((zz n).toNat / 2) - 1 := by
  rcases lt_or_ge n.toInt 0 with hneg | hnonneg
  · have himage := zz_toNat_of_neg hneg
    have hodd : ¬ (zz n).toNat % 2 = 0 := by omega
    rw [if_neg hodd]
    omega
  · have himage := zz_toNat_of_nonneg hnonneg
    have heven : (zz n).toNat % 2 = 0 := by omega
    rw [if_pos heven]
    omega

theorem zz_injective : Function.Injective zz := by
  intro a b h
  apply BitVec.eq_of_toInt_eq
  rw [toInt_eq_of_zz a, toInt_eq_of_zz b, h]

/-- Settles O10: the closed form by sign; an injective map of the finitely many words to themselves is a bijection. -/
theorem zigZagClosedForm : Obligations.ZigZagClosedForm :=
  ⟨fun _ => ⟨rfl, zz_toNat_of_nonneg, zz_toNat_of_neg⟩, Finite.injective_iff_bijective.mp zz_injective⟩

end Sys2Proof.Machine

/-! PROOFS. Sequencing (43_sequencing_and_host.md): what the four commands write when they start an operation. -/

namespace Sys2Proof.Machine

/-! ### The magnitude an encode starts from -/

theorem operandMagnitude_of_unsigned {code : Code} (h : isSigned code = false) (v : Word) :
    operandMagnitude code v = v := by
  rw [operandMagnitude, h, if_neg Bool.false_ne_true]

theorem operandMagnitude_of_signed {code : Code} (h : isSigned code = true) (v : Word) :
    operandMagnitude code v = zz v := by
  rw [operandMagnitude, if_pos h]

/-! ### The commands -/

/-- A command is the start of its code, in the direction that `OP[0]` gives, behind the test for a running operation
(R191, R192, R199). -/
theorem exec_decodeCommand (code : Code) (s : State) :
    exec (decodeCommand code) s =
      whenReady s (if isDecode code then startDecode code s else startEncode code s) := by
  rcases decodeCommand_code code with ⟨hc, rfl⟩ | ⟨hc, rfl⟩ | ⟨hc, rfl⟩ | ⟨hc, rfl⟩ <;> rw [hc] <;> rfl

theorem exec_encode_of_ready {code : Code} {s : State} (hd : isDecode code = false) (hp : s.phase ≠ .run) :
    exec (decodeCommand code) s = .next (startEncode code s) := by
  rw [exec_decodeCommand, whenReady_of_ready hp, hd, if_neg Bool.false_ne_true]

theorem exec_decode_of_ready {code : Code} {s : State} (hd : isDecode code = true) (hp : s.phase ≠ .run) :
    exec (decodeCommand code) s = .next (startDecode code s) := by
  rw [exec_decodeCommand, whenReady_of_ready hp, if_pos hd]

/-- Settles O27: the start of each encode code, with its magnitude by `OP[1]`. -/
theorem startEncodeWrites : Obligations.StartEncodeWrites := by
  intro s hp
  have hencu : exec .encu s = .next (startEncode 0b00 s) := exec_encode_of_ready (code := 0b00) rfl hp
  have hencs : exec .encs s = .next (startEncode 0b10 s) := exec_encode_of_ready (code := 0b10) rfl hp
  rw [hencu, hencs, startEncode, startEncode, operandMagnitude_of_unsigned rfl, operandMagnitude_of_signed rfl, zz]
  exact ⟨rfl, rfl⟩

/-- Settles O28: the start of each decode code. -/
theorem startDecodeWrites : Obligations.StartDecodeWrites :=
  fun _ hp => ⟨exec_decode_of_ready (code := 0b01) rfl hp, exec_decode_of_ready (code := 0b11) rfl hp⟩

end Sys2Proof.Machine

/-! PROOFS. Arithmetic laws and invariants (44_arithmetic_laws_and_invariants.md): the operators of `ZZ` and of the
magnitude, the shape of an encoding, and what a decode makes of it. -/

namespace Sys2Proof.Machine

/-! ### The operators -/

theorem sar64_63_getLsbD (p : Word) {i : Nat} (hi : i < 64) : (sar64 p 63).getLsbD i = p.getLsbD 63 := by
  rw [sar64, BitVec.getLsbD_sshiftRight, BitVec.msb_eq_getLsbD_last]
  rcases Nat.eq_zero_or_pos i with rfl | hpos
  · rfl
  · have hwide : ¬ 64 ≤ i := by omega
    have hpast : ¬ 63 + i < 64 := by omega
    simp [hwide, hpast]

theorem shl64_one_getLsbD (p : Word) {i : Nat} (hi : i < 64) :
    (shl64 p 1).getLsbD i = (decide (1 ≤ i) && p.getLsbD (i - 1)) := by
  rw [shl64, BitVec.getLsbD_shiftLeft, decide_eq_true hi, Bool.true_and, ← decide_not]
  simp only [Nat.not_lt]

/-- Settles O8: the bits of either shift, and the sign of `p` for the arithmetic one as a whole. -/
theorem zigZagShiftsActAsStated : Obligations.ZigZagShiftsActAsStated := by
  refine fun p => ⟨fun i => shl64_one_getLsbD p, shl64_one_toNat p, fun i => sar64_63_getLsbD p, ?_⟩
  split
  case isTrue hnonneg => exact sar64_63_of_nonneg hnonneg
  case isFalse hneg => exact sar64_63_of_neg (not_le.mp hneg)

/-- The bits of a magnitude from bit 7 up are not all 0 exactly when it exceeds 127. -/
theorem extractLsb'_seven_ne_zero_iff (m : Word) : m.extractLsb' 7 57 ≠ 0 ↔ 127 < m.toNat := by
  have hlt := m.isLt
  rw [ne_eq, ← BitVec.toNat_inj, BitVec.extractLsb'_toNat, Nat.shiftRight_eq_div_pow]
  simp only [BitVec.ofNat_eq_ofNat, BitVec.toNat_ofNat, Nat.zero_mod]
  omega

/-- Settles O9. -/
theorem magnitudeOperatorsAreUnsigned : Obligations.MagnitudeOperatorsAreUnsigned := by
  intro m
  have htest : continues m = true ↔ 127 < m.toNat := by rw [continues_eq, decide_eq_true_iff]
  exact ⟨shr64_toNat m 7, shr64_toNat m 1, htest, htest.trans (extractLsb'_seven_ne_zero_iff m).symm⟩

/-! ### Induction along the octets of an encoding -/

/-- A property of every magnitude follows the recursion of `GENC` (40_group_codec.md R114). -/
theorem genc_induction {P : Word → Prop} (last : ∀ m : Word, ¬ 127 < m.toNat → P m)
    (cont : ∀ m : Word, 127 < m.toNat → P (shr64 m 7) → P m) (m : Word) : P m := by
  induction h : m.toNat using Nat.strong_induction_on generalizing m with
  | _ n ih =>
    subst h
    by_cases hgt : 127 < m.toNat
    · have hdec : (shr64 m 7).toNat < m.toNat := by rw [shr64_toNat]; omega
      exact cont m hgt (ih _ hdec _ rfl)
    · exact last m hgt

/-! ### The length of an encoding, and its last octet -/

/-- Dropping `k` bits takes `k` off the bit length. -/
theorem size_div_two_pow (n k : Nat) : (n / 2 ^ k).size = n.size - k := by
  refine eq_of_forall_ge_iff fun c => ?_
  rw [Nat.size_le, Nat.div_lt_iff_lt_mul (Nat.two_pow_pos k), ← Nat.pow_add, ← Nat.size_le,
    Nat.sub_le_iff_le_add]

/-- As many octets as 7-bit groups cover the bit length, and one for zero (R232). -/
theorem genc_length (m : Word) : (genc m).length = max 1 ((m.toNat.size + 6) / 7) := by
  induction m using genc_induction with
  | last m hle =>
    have hsize : m.toNat.size ≤ 7 := Nat.size_le.mpr (by omega)
    rw [genc_of_le hle, List.length_singleton]
    omega
  | cont m hgt ih =>
    have hsize : 7 < m.toNat.size := Nat.lt_size.mpr (by omega)
    rw [genc_of_gt hgt, List.length_cons, ih, shr64_toNat, size_div_two_pow]
    omega

theorem genc_ne_nil (m : Word) : genc m ≠ [] := gencUpTo_ne_nil 9 m

theorem ne_zero_of_toNat_pos {w : Nat} {x : BitVec w} (h : 0 < x.toNat) : x ≠ 0 :=
  x.pos_iff_ne_zero.mp (x.toNat_pos.mp h)

/-- The last group holds the highest 1 bit of the magnitude. -/
theorem genc_getLast_ne_zero {m : Word} (hm : m ≠ 0) {b : Byte} (hb : (genc m).getLast? = some b) : b ≠ 0 := by
  induction m using genc_induction with
  | last m hle =>
    have hpos := BitVec.toNat_pos_of_ne_zero hm
    rw [genc_of_le hle, List.getLast?_singleton, Option.some_inj] at hb
    refine ne_zero_of_toNat_pos ?_
    rw [← hb, tag_toNat, grp_toNat, Bool.toNat_false]
    omega
  | cont m hgt ih =>
    have hrest : shr64 m 7 ≠ 0 := by
      refine ne_zero_of_toNat_pos ?_
      rw [shr64_toNat]
      omega
    rw [genc_of_gt hgt, List.getLast?_cons_of_ne_nil (genc_ne_nil _)] at hb
    exact ih hrest hb

/-- Settles O15: the length by `genc_length`, where a magnitude other than 0 has a bit to cover. -/
theorem encodingIsMinimal : Obligations.EncodingIsMinimal := by
  refine ⟨fun m => ⟨?_, genc_length_pos m, genc_length_le m, fun hm b => genc_getLast_ne_zero hm⟩,
    fun n => ⟨rfl, rfl⟩⟩
  rw [genc_length]
  split
  case isTrue h => rw [h]; rfl
  case isFalse h =>
    have hpos : 0 < m.toNat.size := Nat.size_pos.mpr (BitVec.toNat_pos_of_ne_zero h)
    omega

/-! ### An encoding as a decode sees it -/

/-- The only octet of an encoding without the continuation flag is its last. -/
theorem terminatorIndex_genc (m : Word) : terminatorIndex (genc m) = some ((genc m).length - 1) := by
  induction m using genc_induction with
  | last m hle => rw [genc_of_le hle, terminatorIndex_cons_last (tag_flag _ _), List.length_singleton]
  | cont m hgt ih =>
    have hpos := genc_length_pos (shr64 m 7)
    rw [genc_of_gt hgt, terminatorIndex_cons_cont (tag_flag _ _), ih, Option.map_some, List.length_cons,
      Nat.sub_add_cancel hpos, Nat.add_sub_cancel]

/-- The groups of an encoding add up to its magnitude. -/
theorem rawMagnitude_genc (m : Word) : rawMagnitude (genc m) = m.toNat := by
  induction m using genc_induction with
  | last m hle =>
    rw [genc_of_le hle, rawMagnitude, rawMagnitude, tag_group, grp_toNat]
    omega
  | cont m hgt ih =>
    rw [genc_of_gt hgt, rawMagnitude, ih, tag_group, grp_toNat, shr64_toNat]
    omega

theorem terminatorIndex_lt_length {s : List Byte} {k : Nat} (h : terminatorIndex s = some k) : k < s.length := by
  obtain ⟨p, b, t, rfl, rfl, _, _⟩ := terminatorIndex_eq_some.mp h
  rw [List.length_append, List.length_cons]
  omega

/-- Octets after the terminator do not move it. -/
theorem terminatorIndex_append {s : List Byte} {k : Nat} (h : terminatorIndex s = some k) (t : List Byte) :
    terminatorIndex (s ++ t) = some k := by
  obtain ⟨p, b, u, rfl, hk, hb, hp⟩ := terminatorIndex_eq_some.mp h
  exact terminatorIndex_eq_some.mpr ⟨p, b, u ++ t, List.append_assoc .., hk, hb, hp⟩

/-- A cut at or before the terminator leaves none. -/
theorem terminatorIndex_take {s : List Byte} {k j : Nat} (h : terminatorIndex s = some k) (hj : j ≤ k) :
    terminatorIndex (s.take j) = none := by
  obtain ⟨p, b, t, rfl, rfl, _, hp⟩ := terminatorIndex_eq_some.mp h
  rw [List.take_append_of_le_length hj]
  exact terminatorIndex_eq_none.mpr fun x hx => hp x (List.mem_of_mem_take hx)

/-- A decode does not look past the terminator (R235). -/
theorem gdec_append {s : List Byte} {k : Nat} (h : terminatorIndex s = some k) (t : List Byte) :
    gdec (s ++ t) = gdec s := by
  rw [gdec_of_terminatorIndex h, gdec_of_terminatorIndex (terminatorIndex_append h t),
    List.take_append_of_le_length (terminatorIndex_lt_length h)]

/-- `GDEC` undoes `GENC`, whatever octets follow. -/
theorem gdec_genc_append (m : Word) (t : List Byte) :
    gdec (genc m ++ t) = .ok { mag := m, consumed := (genc m).length, ovf := false } := by
  have hterm := terminatorIndex_genc m
  rw [gdec_append hterm, gdec_of_terminatorIndex hterm, Nat.sub_add_cancel (genc_length_pos m), List.take_length,
    rawMagnitude_genc, BitVec.ofNat_toNat, BitVec.setWidth_eq, decide_eq_false (Nat.not_le.mpr m.isLt)]

/-! ### `DECU` and `DECS` by what `GDEC` answers -/

theorem decodeUnsigned_of_error {s : List Byte} {e : ParseError} (h : gdec s = .error e) :
    decodeUnsigned s = .err e := by
  rw [decodeUnsigned, h]

theorem decodeSigned_of_error {s : List Byte} {e : ParseError} (h : gdec s = .error e) : decodeSigned s = .err e := by
  rw [decodeSigned, h]

theorem decodeUnsigned_of_ok {s : List Byte} {d : Decoded} (h : gdec s = .ok d) :
    decodeUnsigned s = .okUnsigned d.mag.toNat d.consumed d.ovf := by
  rw [decodeUnsigned, h]

theorem decodeSigned_of_ok {s : List Byte} {d : Decoded} (h : gdec s = .ok d) :
    decodeSigned s = .okSigned (unzz d.mag).toInt d.consumed d.ovf := by
  rw [decodeSigned, h]

/-! ### Round trips -/

/-- `UNZZ` as one integer formula in the parity and the half of the magnitude (R161). -/
theorem unzz_eq_ofInt (m : Word) :
    unzz m = BitVec.ofInt 64 (if m.toNat % 2 = 0 then (m.toNat : Int) / 2 else -(m.toNat / 2) - 1) := by
  have hbit : m.getLsbD 0 = decide (m.toNat % 2 = 1) := by rw [BitVec.getLsbD, Nat.testBit_zero]
  simp only [unzz, hbit, decide_eq_true_eq]
  by_cases hodd : m.toNat % 2 = 1
  · have hneven : ¬ m.toNat % 2 = 0 := by omega
    rw [if_pos hodd, if_neg hneven]
    congr 1
    omega
  · have heven : m.toNat % 2 = 0 := by omega
    rw [if_neg hodd, if_pos heven, ← BitVec.ofInt_natCast, Int.natCast_div, Nat.cast_ofNat]

theorem unzz_zz (n : Word) : unzz (zz n) = n := by
  rw [unzz_eq_ofInt, ← toInt_eq_of_zz, BitVec.ofInt_toInt]

/-- Settles O22. -/
theorem roundTripUnsigned : Obligations.RoundTripUnsigned := by
  intro n t
  exact decodeUnsigned_of_ok (gdec_genc_append n t)

/-- Settles O23: the magnitude comes back, and `UNZZ` undoes `ZZ`. -/
theorem roundTripSigned : Obligations.RoundTripSigned := by
  intro n t
  have hdec := decodeSigned_of_ok (gdec_genc_append (zz n) t)
  rwa [unzz_zz] at hdec

/-! ### When a decode fails -/

/-- A terminator is an octet below 0x80. -/
theorem terminatorIndex_ne_none_iff {s : List Byte} : terminatorIndex s ≠ none ↔ ∃ b ∈ s, b.toNat < 0x80 := by
  rw [ne_eq, terminatorIndex_eq_none]
  simp only [octet_flag_iff, not_forall, exists_prop, Nat.not_le]

/-- What `GDEC` can do: fail where no octet is below 0x80, and answer where one is. -/
theorem gdec_cases (s : List Byte) :
    ((¬ ∃ b ∈ s, b.toNat < 0x80) ∧ gdec s = .error .malformedOrTruncated) ∨
    ((∃ b ∈ s, b.toNat < 0x80) ∧ ∃ d, gdec s = .ok d) := by
  rw [← terminatorIndex_ne_none_iff]
  cases h : terminatorIndex s with
  | none => exact .inl ⟨not_not.mpr rfl, gdec_error_iff.mpr h⟩
  | some k => exact .inr ⟨Option.some_ne_none k, _, gdec_of_terminatorIndex h⟩

/-- `DECU` answers on every input (R238). -/
theorem decodeUnsigned_total (s : List Byte) :
    (decodeUnsigned s = .err .malformedOrTruncated ↔ ¬ ∃ b ∈ s, b.toNat < 0x80) ∧
    ((∃ b ∈ s, b.toNat < 0x80) → ∃ x c o, decodeUnsigned s = .okUnsigned x c o) := by
  rcases gdec_cases s with ⟨hnone, herr⟩ | ⟨hsome, d, hok⟩
  · exact ⟨iff_of_true (decodeUnsigned_of_error herr) hnone, fun h => absurd h hnone⟩
  · have hdec := decodeUnsigned_of_ok hok
    exact ⟨iff_of_false (by rw [hdec]; nofun) (not_not.mpr hsome), fun _ => ⟨_, _, _, hdec⟩⟩

/-- `DECS` answers on every input (R238). -/
theorem decodeSigned_total (s : List Byte) :
    (decodeSigned s = .err .malformedOrTruncated ↔ ¬ ∃ b ∈ s, b.toNat < 0x80) ∧
    ((∃ b ∈ s, b.toNat < 0x80) → ∃ x c o, decodeSigned s = .okSigned x c o) := by
  rcases gdec_cases s with ⟨hnone, herr⟩ | ⟨hsome, d, hok⟩
  · exact ⟨iff_of_true (decodeSigned_of_error herr) hnone, fun h => absurd h hnone⟩
  · have hdec := decodeSigned_of_ok hok
    exact ⟨iff_of_false (by rw [hdec]; nofun) (not_not.mpr hsome), fun _ => ⟨_, _, _, hdec⟩⟩

/-- Settles O19: an encode computes its octets; a decode is decided by whether there is a terminator. -/
theorem operationsAreTotal : Obligations.OperationsAreTotal :=
  ⟨fun _ _ => ⟨_, rfl⟩, fun _ _ => ⟨_, rfl⟩, fun _ => decodeUnsigned_total, fun _ => decodeSigned_total⟩

/-! ### Cut encodings -/

/-- An encoding cut short ends before its terminator. -/
theorem gdec_genc_take {m : Word} {j : Nat} (hj : j < (genc m).length) :
    gdec ((genc m).take j) = .error .malformedOrTruncated :=
  gdec_error_iff.mpr (terminatorIndex_take (terminatorIndex_genc m) (Nat.le_sub_one_of_lt hj))

/-- No encoding begins another: a decode of both encodings reads the same magnitude. -/
theorem genc_eq_of_append_eq {a b : Word} {t : List Byte} (h : genc a ++ t = genc b) : t = [] ∧ a = b := by
  have hdec := (gdec_genc_append a t).symm.trans ((congrArg gdec (h.trans (genc b).append_nil.symm)).trans
    (gdec_genc_append b []))
  have hab : a = b := congrArg Decoded.mag (Except.ok.inj hdec)
  subst hab
  exact ⟨List.append_right_eq_self.mp h, rfl⟩

/-- Settles O24. -/
theorem truncationFails : Obligations.TruncationFails := by
  have hcut (m : Word) (j : Nat) (hj : j < (genc m).length) :
      decodeUnsigned ((genc m).take j) = .err .malformedOrTruncated ∧
      decodeSigned ((genc m).take j) = .err .malformedOrTruncated :=
    ⟨decodeUnsigned_of_error (gdec_genc_take hj), decodeSigned_of_error (gdec_genc_take hj)⟩
  exact ⟨fun _ _ => gdec_genc_take, hcut, fun n => hcut (zz n), fun _ _ _ => genc_eq_of_append_eq⟩

/-! ### A row of encodings -/

/-- The parse loop takes an encoding off the front and reads its magnitude as the schema says. -/
theorem parseValues_cons_genc (signed : Bool) (schema : List Bool) (m : Word) (rest : List Byte) :
    parseValues (signed :: schema) (genc m ++ rest) =
      (parseValues schema rest).map ((if signed then unzz m else m) :: ·) := by
  simp only [parseValues, gdec_genc_append, List.drop_left]
  cases parseValues schema rest <;> rfl

/-- A value of either kind in front of a buffer: the parse loop gives it back and goes on behind its octets. -/
theorem parseValues_cons_encode (signed : Bool) (v : Word) (schema : List Bool) (rest : List Byte) :
    parseValues (signed :: schema) ((if signed then encodeSigned v else encodeUnsigned v) ++ rest) =
      (parseValues schema rest).map (v :: ·) := by
  cases signed
  case false => exact parseValues_cons_genc false schema v rest
  case true =>
    have hzz := parseValues_cons_genc true schema (zz v) rest
    rwa [if_pos rfl, unzz_zz] at hzz

/-- Settles O25: a decode stops at the terminator, and the row is taken apart value by value. -/
theorem consumedLengthIsCorrect : Obligations.ConsumedLengthIsCorrect := by
  refine ⟨fun s t h => gdec_append h t, fun vs t => ?_⟩
  induction vs with
  | nil => rfl
  | cons p vs ih =>
    simp only [List.map_cons, List.flatten_cons, List.append_assoc]
    rw [parseValues_cons_encode, ih]
    rfl

end Sys2Proof.Machine

/-! PROOFS. Encoding (30_encoding.md): `decode` and `encode` by format, and where `decode` refuses. -/

namespace Sys2Proof.Machine

/-! ### Octets (R80, R81) -/

theorem decodeOctet_tag (c : Bool) (g : Group) : decodeOctet (tag c g) = if c then .cont g else .last g := by
  have hgroup : (tag c g).setWidth 7 = g := congrArg Prod.snd (untag_tag c g)
  rw [decodeOctet, tag_flag, hgroup]

theorem encodeByte_decodeOctet (b : Byte) : encodeByte (decodeOctet b) = b := by
  conv_rhs => rw [← tag_untag b, untag]
  cases h : b.getLsbD 7 <;> simp only [decodeOctet, h, Bool.false_eq_true, if_false, if_true] <;> rfl

theorem format_decodeOctet (b : Byte) : (decodeOctet b).format = .wireOctet := by
  rw [decodeOctet]
  split <;> rfl

/-! ### Commands (R90, R91) -/

theorem format_decodeCommand (code : Code) : (decodeCommand code).format = .cmd2 := by
  revert code; decide

theorem encodeByte_decodeCommand (code : Code) : encodeByte (decodeCommand code) = code.setWidth 8 := by
  revert code; decide

/-- Below 4 the low two bits of a byte are all of it. -/
theorem encodeByte_decodeCommand_setWidth {b : Byte} (h : b.toNat < 4) :
    encodeByte (decodeCommand (b.setWidth 2)) = b := by
  apply BitVec.eq_of_toNat_eq
  rw [encodeByte_decodeCommand, BitVec.toNat_setWidth, BitVec.toNat_setWidth]
  omega

/-! ### `decode` by format -/

theorem decode_nil (f : Format) : decode f [] = .error .noByte := rfl

theorem decode_wireOctet (b : Byte) (rest : List Byte) :
    decode .wireOctet (b :: rest) = .ok (decodeOctet b, rest) := rfl

theorem decode_cmd2_of_lt {b : Byte} (h : b.toNat < 4) (rest : List Byte) :
    decode .cmd2 (b :: rest) = .ok (decodeCommand (b.setWidth 2), rest) := by
  simp only [decode, decodeCommandByte, if_pos h]

theorem decode_cmd2_of_ge {b : Byte} (h : 4 ≤ b.toNat) (rest : List Byte) :
    decode .cmd2 (b :: rest) = .error .notACommandCode := by
  simp only [decode, decodeCommandByte, if_neg (Nat.not_lt.mpr h)]

theorem decode_encode (i : Instr) (rest : List Byte) : decode i.format (encode i ++ rest) = .ok (i, rest) := by
  cases i with
  | encu => rfl
  | decu => rfl
  | encs => rfl
  | decs => rfl
  | cont g => exact congrArg (fun i => Except.ok (i, rest)) (decodeOctet_tag true g)
  | last g => exact congrArg (fun i => Except.ok (i, rest)) (decodeOctet_tag false g)

/-- What is read is the encoding of the instruction, in its format. -/
theorem encode_of_decode {f : Format} {bytes rest : List Byte} {i : Instr} (h : decode f bytes = .ok (i, rest)) :
    i.format = f ∧ bytes = encode i ++ rest := by
  cases bytes with
  | nil => cases h
  | cons b tail =>
    cases f with
    | wireOctet =>
      cases h
      exact ⟨format_decodeOctet b, congrArg (· :: rest) (encodeByte_decodeOctet b).symm⟩
    | cmd2 =>
      rcases Nat.lt_or_ge b.toNat 4 with hlt | hge
      · rw [decode_cmd2_of_lt hlt] at h
        cases h
        exact ⟨format_decodeCommand _, congrArg (· :: rest) (encodeByte_decodeCommand_setWidth hlt).symm⟩
      · rw [decode_cmd2_of_ge hge] at h
        cases h

/-- Settles O2: one lemma for each direction. -/
theorem decodeAndEncodeAgree : Obligations.DecodeAndEncodeAgree :=
  ⟨fun i rest _ => decode_encode i rest, fun _ _ _ _ => encode_of_decode⟩

/-- Settles O3: no byte, an octet, or a command byte on either side of 4. -/
theorem decodeRefusesOnlyTheseBytes : Obligations.DecodeRefusesOnlyTheseBytes := by
  intro f bytes e
  cases bytes with
  | nil => simp [decode_nil, eq_comm]
  | cons b rest =>
    cases f with
    | wireOctet => simp [decode_wireOctet]
    | cmd2 =>
      rcases Nat.lt_or_ge b.toNat 4 with hlt | hge
      · simp [decode_cmd2_of_lt hlt, hlt]
      · simp [decode_cmd2_of_ge hge, hge, eq_comm]

/-- Settles O1: fixed words. -/
theorem wordsOfTheTableDecode : Obligations.WordsOfTheTableDecode :=
  ⟨rfl, rfl, rfl, rfl, rfl, rfl, rfl, rfl⟩

end Sys2Proof.Machine

/-! PROOFS. `PACK` (40_group_codec.md R113) by group number and as an addition, and what it makes of the raw
magnitude. -/

namespace Sys2Proof.Machine

theorem packFull_eq (g : Group) (i : Nat) : packFull g i = g.toNat * 2 ^ (7 * i) := rfl

/-- The weighted group, truncated, is a left shift. -/
theorem ofNat_packFull (g : Group) (i : Nat) : BitVec.ofNat 64 (packFull g i) = g.setWidth 64 <<< (7 * i) := by
  apply BitVec.eq_of_toNat_eq
  have hwide : g.toNat % 2 ^ 64 = g.toNat := Nat.mod_eq_of_lt (by omega)
  rw [BitVec.toNat_ofNat, BitVec.toNat_shiftLeft, BitVec.toNat_setWidth, hwide, Nat.shiftLeft_eq, packFull_eq]

/-- Up to group 8 the weighted group stays below bit 63. -/
theorem packFull_lt {i : Nat} (g : Group) (hi : i ≤ 8) : packFull g i < 2 ^ 63 := by
  have hweight : 2 ^ (7 * i) ≤ 2 ^ 56 := Nat.pow_le_pow_right (by decide) (by omega)
  calc packFull g i < 2 ^ 7 * 2 ^ (7 * i) := Nat.mul_lt_mul_of_pos_right g.isLt (Nat.two_pow_pos _)
    _ ≤ 2 ^ 7 * 2 ^ 56 := Nat.mul_le_mul_left _ hweight

theorem packLost_of_le {i : Nat} (g : Group) (hi : i ≤ 8) : packLost g i = false := by
  have hlt := packFull_lt g hi
  rw [← Bool.not_eq_true, packLost_iff]
  omega

theorem packLost_nine (g : Group) : packLost g 9 = decide (2 ≤ g.toNat) := by
  rw [Bool.eq_iff_iff, packLost_iff, packFull_eq, decide_eq_true_iff]
  omega

theorem packLost_of_ge {i : Nat} (g : Group) (hi : 10 ≤ i) : packLost g i = decide (g ≠ 0) := by
  have hweight : 2 ^ 70 ≤ 2 ^ (7 * i) := Nat.pow_le_pow_right (by decide) (by omega)
  rw [Bool.eq_iff_iff, packLost_iff, packFull_eq, decide_eq_true_iff]
  constructor
  · rintro hle rfl
    rw [BitVec.ofNat_eq_ofNat, BitVec.toNat_ofNat, Nat.zero_mod, Nat.zero_mul] at hle
    omega
  · intro hne
    have hpos := BitVec.toNat_pos_of_ne_zero hne
    calc 2 ^ 64 ≤ 1 * 2 ^ (7 * i) := by omega
      _ ≤ g.toNat * 2 ^ (7 * i) := Nat.mul_le_mul_right _ hpos

/-- Of group 9 only bit 0 lands, at bit 63. -/
theorem ofNat_packFull_nine (g : Group) :
    BitVec.ofNat 64 (packFull g 9) = if g.getLsbD 0 then 0x8000000000000000 else 0 := by
  have hbit : g.getLsbD 0 = decide (g.toNat % 2 = 1) := by rw [BitVec.getLsbD, Nat.testBit_zero]
  apply BitVec.eq_of_toNat_eq
  rw [BitVec.toNat_ofNat, packFull_eq, hbit]
  by_cases hodd : g.toNat % 2 = 1
  · rw [decide_eq_true hodd, if_pos rfl]
    change _ = 2 ^ 63
    omega
  · rw [decide_eq_false hodd, if_neg Bool.false_ne_true]
    change _ = 0
    omega

/-- From group 10 on nothing lands. -/
theorem ofNat_packFull_of_ge {i : Nat} (g : Group) (hi : 10 ≤ i) : BitVec.ofNat 64 (packFull g i) = 0 := by
  have hdvd : 2 ^ 64 ∣ packFull g i :=
    Dvd.dvd.mul_left (Nat.pow_dvd_pow 2 (by omega : 64 ≤ 7 * i)) _
  apply BitVec.eq_of_toNat_eq
  rw [BitVec.toNat_ofNat, Nat.mod_eq_zero_of_dvd hdvd]
  rfl

/-- Settles O6: the weighted group, and what is lost of it, on either side of 9. -/
theorem packByGroupNumber : Obligations.PackByGroupNumber := by
  intro acc g i
  refine ⟨fun hi => ⟨?_, packFull_lt g hi⟩, ?_, fun hi => ?_⟩
  · rw [pack, packAcc, ofNat_packFull, packLost_of_le g hi]
  · rintro rfl
    rw [pack, packAcc, ofNat_packFull_nine, packLost_nine]
  · rw [pack, packAcc, ofNat_packFull_of_ge g hi, packLost_of_ge g hi]
    exact congrArg (·, decide (g ≠ 0)) BitVec.or_zero

/-- An OR of numbers whose 1 bits do not meet is their sum. -/
theorem packAcc_toNat {acc : Word} {i : Nat} (g : Group) (h : acc.toNat < 2 ^ (7 * i)) :
    (packAcc acc g i).toNat = (acc.toNat + packFull g i) % 2 ^ 64 := by
  have hor : acc.toNat + packFull g i = acc.toNat ||| packFull g i := by
    rw [packFull_eq, Nat.add_comm, Nat.mul_comm, Nat.two_pow_add_eq_or_of_lt h, Nat.or_comm]
  rw [hor, packAcc, BitVec.toNat_or, BitVec.toNat_ofNat, Nat.or_mod_two_pow, Nat.mod_eq_of_lt acc.isLt]

/-- Adding less than the group's weight cannot carry a sum to `2^64`. -/
theorem packLost_iff_add {acc : Word} {i : Nat} (g : Group) (h : acc.toNat < 2 ^ (7 * i)) :
    packLost g i = true ↔ 2 ^ 64 ≤ acc.toNat + packFull g i := by
  rw [packLost_iff]
  rcases Nat.le_total (7 * i) 64 with hi | hi
  · obtain ⟨q, hq⟩ := Nat.pow_dvd_pow 2 hi
    have hdiv : (acc.toNat + g.toNat * 2 ^ (7 * i)) / 2 ^ (7 * i) = g.toNat := by
      rw [Nat.add_mul_div_right _ _ (Nat.two_pow_pos _), Nat.div_eq_of_lt h, Nat.zero_add]
    rw [packFull_eq, hq, Nat.mul_comm, ← Nat.le_div_iff_mul_le (Nat.two_pow_pos _),
      ← Nat.le_div_iff_mul_le (Nat.two_pow_pos _), hdiv, Nat.mul_div_cancel _ (Nat.two_pow_pos _)]
  · have hweight : 2 ^ 64 ≤ 2 ^ (7 * i) := Nat.pow_le_pow_right (by decide) hi
    have hacc := acc.isLt
    rw [packFull_eq]
    rcases Nat.eq_zero_or_pos g.toNat with hg | hg
    · rw [hg]
      omega
    · have := Nat.mul_le_mul_right (2 ^ (7 * i)) hg
      omega

/-- Settles O7: the accumulator and the lost bit. -/
theorem packIsAnAddition : Obligations.PackIsAnAddition :=
  fun _ g _ h => ⟨packAcc_toNat g h, packLost_iff_add g h⟩

/-! ### `PACK` on the raw magnitude of the octets so far -/

/-- The raw magnitude with one more octet, by the weighted group that `PACK` adds. -/
theorem rawMagnitude_concat_packFull (l : List Byte) (b : Byte) :
    rawMagnitude (l ++ [b]) = rawMagnitude l + packFull (b.setWidth 7) l.length := by
  rw [rawMagnitude_concat, packFull_eq, octet_group_toNat]

/-- Truncation keeps a magnitude below the weight of the next group. -/
theorem ofNat_rawMagnitude_lt (l : List Byte) : (BitVec.ofNat 64 (rawMagnitude l)).toNat < 2 ^ (7 * l.length) :=
  (Nat.mod_le _ _).trans_lt (rawMagnitude_lt l)

theorem packAcc_rawMagnitude (l : List Byte) (b : Byte) :
    packAcc (BitVec.ofNat 64 (rawMagnitude l)) (b.setWidth 7) l.length = BitVec.ofNat 64 (rawMagnitude (l ++ [b])) := by
  apply BitVec.eq_of_toNat_eq
  rw [packAcc_toNat _ (ofNat_rawMagnitude_lt l), rawMagnitude_concat_packFull, BitVec.toNat_ofNat, BitVec.toNat_ofNat,
    Nat.mod_add_mod]

/-- A raw magnitude is past 64 bits exactly when it was so before or the last group loses a 1 bit. -/
theorem rawMagnitude_concat_ge_iff (l : List Byte) (b : Byte) :
    2 ^ 64 ≤ rawMagnitude (l ++ [b]) ↔ 2 ^ 64 ≤ rawMagnitude l ∨ packLost (b.setWidth 7) l.length = true := by
  rw [packLost_iff_add _ (ofNat_rawMagnitude_lt l), rawMagnitude_concat_packFull, BitVec.toNat_ofNat]
  omega

end Sys2Proof.Machine

/-! PROOFS. Zig-zag as an inverse and as an order, and the length tables (42_signed_varint.md; 30_encoding.md). -/

namespace Sys2Proof.Machine

/-! ### `UNZZ` (R161) -/

theorem unzz_toInt (m : Word) :
    (unzz m).toInt = if m.toNat % 2 = 0 then (m.toNat : Int) / 2 else -(m.toNat / 2) - 1 := by
  have hlt := m.isLt
  rw [unzz_eq_ofInt, BitVec.toInt_ofInt_eq_self (by decide)]
  all_goals split <;> omega

theorem zz_unzz (m : Word) : zz (unzz m) = m := by
  obtain ⟨n, rfl⟩ := zigZagClosedForm.2.surjective m
  rw [unzz_zz]

/-- Settles O11: the closed form by parity, and `ZZ` is a bijection that `UNZZ` undoes. -/
theorem unZigZagInvertsZigZag : Obligations.UnZigZagInvertsZigZag := by
  refine ⟨fun m => ⟨fun heven => ?_, fun hodd => ?_⟩, unzz_zz, zz_unzz⟩
  · rw [unzz_toInt, if_pos heven, Int.natCast_div, Nat.cast_ofNat]
  · have hneven : ¬ m.toNat % 2 = 0 := by omega
    rw [unzz_toInt, if_neg hneven]
    omega

/-- The mask of the bit-level form is bit 0 replicated. -/
theorem zero_sub_and_one (m : Word) :
    0 - (m &&& 1) = if m.toNat % 2 = 0 then 0 else BitVec.allOnes 64 := by
  have hmask : m &&& 1 = BitVec.ofNat 64 (m.toNat % 2) := by
    apply BitVec.eq_of_toNat_eq
    rw [BitVec.toNat_and, BitVec.toNat_ofNat]
    change m.toNat &&& 1 = _
    rw [Nat.and_one_is_mod]
    omega
  rw [hmask]
  rcases Nat.mod_two_eq_zero_or_one m.toNat with h | h <;> rw [h] <;> rfl

theorem shr64_one (m : Word) : shr64 m 1 = BitVec.ofNat 64 (m.toNat / 2) := by
  rw [← pow_one 2, ← shr64_toNat, BitVec.ofNat_toNat, BitVec.setWidth_eq]

/-- Settles O12: for even `m` both sides are the half, for odd `m` its complement. -/
theorem unZigZagBitForm : Obligations.UnZigZagBitForm := by
  intro m
  rw [unzz_eq_ofInt, zero_sub_and_one, shr64_one]
  split
  · rw [← BitVec.ofInt_natCast, Int.natCast_div, Nat.cast_ofNat]
    exact BitVec.xor_zero.symm
  · have hneg : -((m.toNat : Int) / 2) - 1 = Int.negSucc (m.toNat / 2) := by omega
    rw [hneg, BitVec.ofInt_negSucc_eq_not_ofNat, BitVec.xor_allOnes]

/-! ### The length of an encoding by its magnitude -/

theorem genc_length_le_iff (m : Word) {k : Nat} (hk : 1 ≤ k) : (genc m).length ≤ k ↔ m.toNat < 2 ^ (7 * k) := by
  rw [genc_length, ← Nat.size_le]
  omega

theorem genc_length_mono {m n : Word} (h : m.toNat ≤ n.toNat) : (genc m).length ≤ (genc n).length :=
  (genc_length_le_iff m (genc_length_pos n)).mpr
    (h.trans_lt ((genc_length_le_iff n (genc_length_pos n)).mp le_rfl))

/-- Settles O13: the closed form of `ZZ` orders by absolute value, and the length follows the magnitude. -/
theorem zigZagKeepsSmallValuesSmall : Obligations.ZigZagKeepsSmallValuesSmall := by
  intro a b h
  have hlt : (zz a).toNat < (zz b).toNat := by
    rcases lt_or_ge a.toInt 0 with ha | ha <;> rcases lt_or_ge b.toInt 0 with hb | hb
    · have := zz_toNat_of_neg ha; have := zz_toNat_of_neg hb; omega
    · have := zz_toNat_of_neg ha; have := zz_toNat_of_nonneg hb; omega
    · have := zz_toNat_of_nonneg ha; have := zz_toNat_of_neg hb; omega
    · have := zz_toNat_of_nonneg ha; have := zz_toNat_of_nonneg hb; omega
  exact ⟨hlt, genc_length_mono hlt.le⟩

/-! ### The octets of an encoding by position -/

theorem shr64_shr64 (m : Word) (a b : Nat) : shr64 (shr64 m a) b = shr64 m (a + b) :=
  (BitVec.shiftRight_add m a b).symm

/-- An encoding of more than one octet continues. -/
theorem genc_length_gt_one_iff (m : Word) : 1 < (genc m).length ↔ 127 < m.toNat := by
  have := genc_length_le_iff m le_rfl
  omega

/-- The octets from the `i`th on are the encoding of what `i` shifts leave of the magnitude. -/
theorem drop_genc {m : Word} {i : Nat} (h : i < (genc m).length) : (genc m).drop i = genc (shr64 m (7 * i)) := by
  induction i generalizing m with
  | zero => rfl
  | succ i ih =>
    have hgt : 127 < m.toNat := (genc_length_gt_one_iff m).mp (by omega)
    rw [genc_of_gt hgt, List.length_cons, Nat.add_lt_add_iff_right] at h
    rw [genc_of_gt hgt, List.drop_succ_cons, ih h, shr64_shr64, Nat.mul_succ, Nat.add_comm]

/-- How many octets are left tells what is left of the magnitude, and which octet is next. -/
theorem genc_length_sub {m : Word} {i : Nat} (h : i < (genc m).length) :
    (genc (shr64 m (7 * i))).length = (genc m).length - i := by
  rw [← drop_genc h, List.length_drop]

theorem continues_iff_of_lt {m : Word} {i : Nat} (h : i < (genc m).length) :
    127 < (shr64 m (7 * i)).toNat ↔ i + 1 < (genc m).length := by
  rw [← genc_length_gt_one_iff, genc_length_sub h]
  omega

/-- Octet `i` of an encoding: the low group of what is left, tagged by whether more follow. -/
theorem genc_getElem? {m : Word} {i : Nat} (h : i < (genc m).length) :
    (genc m)[i]? = some (tag (decide (127 < (shr64 m (7 * i)).toNat)) (grp (shr64 m (7 * i)))) := by
  have hhead : (genc m)[i]? = (genc (shr64 m (7 * i)))[0]? := by rw [← drop_genc h, List.getElem?_drop, Nat.add_zero]
  rw [hhead]
  by_cases hgt : 127 < (shr64 m (7 * i)).toNat
  · rw [genc_of_gt hgt, decide_eq_true hgt]
    rfl
  · rw [genc_of_le hgt, decide_eq_false hgt]
    rfl

/-- A tenth octet carries bit 63 alone, which is set. -/
theorem genc_getLast_of_ten {m : Word} (h : (genc m).length = 10) : (genc m).getLast? = some 0x01 := by
  have hten := mt (genc_length_le_iff m (k := 9) (by decide)).mpr (by omega)
  have hone : shr64 m (7 * 9) = 1 := by
    apply BitVec.eq_of_toNat_eq
    have := m.isLt
    rw [shr64_toNat]
    change _ = 1
    omega
  rw [List.getLast?_eq_getElem?, h, genc_getElem? (by omega), hone]
  rfl

/-- Settles O16: exactly `k` octets is at most `k` and not at most `k - 1`. -/
theorem encodingLengthTable : Obligations.EncodingLengthTable := by
  refine fun m => ⟨fun k hk _ => ?_, genc_getLast_of_ten⟩
  have hpos := genc_length_pos m
  have hle := genc_length_le_iff m hk
  rcases Nat.eq_or_lt_of_le hk with rfl | hk1
  · omega
  · have hpred := genc_length_le_iff m (Nat.le_sub_one_of_lt hk1)
    omega

/-- Settles O17: a signed encoding is as long as that of the image under `ZZ`, whose bound halves on either side
of 0. -/
theorem signedLengthTable : Obligations.SignedLengthTable := by
  intro n k hk hk10
  rcases Nat.eq_or_lt_of_le hk10 with rfl | hlt
  · exact iff_of_true (genc_length_le (zz n)) (.inl rfl)
  · obtain ⟨j, hj⟩ : ∃ j, 7 * k = j + 1 := ⟨7 * k - 1, by omega⟩
    have hne : ¬ k = 10 := by omega
    rw [encodeSigned, genc_length_le_iff _ hk, hj, Nat.add_sub_cancel, pow_succ]
    have hcast : ((2 ^ j : Nat) : Int) = 2 ^ j := by push_cast; rfl
    rcases lt_or_ge n.toInt 0 with hneg | hnonneg
    · have := zz_toNat_of_neg hneg
      omega
    · have := zz_toNat_of_nonneg hnonneg
      omega

/-! ### When a decode overflows -/

/-- Settles O20: fixed inputs. -/
theorem overflowWrapsTheValue : Obligations.OverflowWrapsTheValue := by
  refine ⟨?_, ?_, ?_, ?_, ?_⟩ <;> decide

/-- The raw magnitude is past 64 bits exactly when some octet loses a 1 bit. -/
theorem rawMagnitude_ge_iff (l : List Byte) :
    2 ^ 64 ≤ rawMagnitude l ↔ ∃ i b, l[i]? = some b ∧ packLost (b.setWidth 7) i = true := by
  induction l using List.reverseRecOn with
  | nil => simp [rawMagnitude]
  | append_singleton l b ih =>
    rw [rawMagnitude_concat_ge_iff, ih]
    constructor
    · rintro (⟨i, c, hc, hlost⟩ | hlost)
      · exact ⟨i, c, (List.getElem?_append_left (List.getElem?_eq_some_iff.mp hc).1).trans hc, hlost⟩
      · exact ⟨l.length, b, List.getElem?_concat_length, hlost⟩
    · rintro ⟨i, c, hc, hlost⟩
      rcases Nat.lt_trichotomy i l.length with hi | rfl | hi
      · rw [List.getElem?_append_left hi] at hc
        exact .inl ⟨i, c, hc, hlost⟩
      · rw [List.getElem?_concat_length, Option.some_inj] at hc
        exact .inr (hc ▸ hlost)
      · rw [List.getElem?_eq_none (by simpa using hi)] at hc
        cases hc

/-- A group loses a 1 bit only at index 9 or later. -/
theorem packLost_setWidth_iff (b : Byte) (i : Nat) :
    packLost (b.setWidth 7) i = true ↔ (i = 9 ∧ 2 ≤ b.toNat % 128) ∨ (10 ≤ i ∧ b.toNat % 128 ≠ 0) := by
  rcases Nat.lt_trichotomy i 9 with hi | rfl | hi
  · rw [packLost_of_le _ (Nat.le_of_lt_succ hi)]
    simp only [Bool.false_eq_true, false_iff]
    omega
  · rw [packLost_nine, decide_eq_true_iff, octet_group_toNat]
    omega
  · rw [packLost_of_ge _ hi, decide_eq_true_iff, ne_eq, ← BitVec.toNat_inj, octet_group_toNat]
    change ¬ _ = 0 ↔ _
    omega

/-- What a decode that succeeds answers, by the octets it consumed. -/
theorem gdec_ok {s : List Byte} {d : Decoded} (h : gdec s = .ok d) :
    terminatorIndex s = some (d.consumed - 1) ∧ 1 ≤ d.consumed ∧ d.consumed ≤ s.length ∧
      d.mag = BitVec.ofNat 64 (rawMagnitude (s.take d.consumed)) ∧
      d.ovf = decide (2 ^ 64 ≤ rawMagnitude (s.take d.consumed)) := by
  cases hk : terminatorIndex s with
  | none =>
    rw [gdec_error_iff.mpr hk] at h
    cases h
  | some k =>
    rw [gdec_of_terminatorIndex hk] at h
    cases h
    exact ⟨rfl, Nat.le_add_left .., terminatorIndex_lt_length hk, rfl, rfl⟩

/-- Settles O21: `ovf` is a raw magnitude past 64 bits, and so an octet that loses a 1 bit. -/
theorem overflowOnlyFromHighGroups : Obligations.OverflowOnlyFromHighGroups := by
  intro s d h
  obtain ⟨-, -, -, -, hovf⟩ := gdec_ok h
  rw [hovf, decide_eq_true_iff, rawMagnitude_ge_iff]
  simp only [packLost_setWidth_iff, List.getElem?_take, Option.ite_none_right_eq_some, and_assoc]

/-! ### The canonical encoding is the shortest -/

/-- Octets with the same flags, in a list of the same length, are told apart by their raw magnitude. -/
theorem eq_of_flags_of_rawMagnitude {s t : List Byte}
    (hflags : s.map (·.getLsbD 7) = t.map (·.getLsbD 7)) (hraw : rawMagnitude s = rawMagnitude t) : s = t := by
  induction s generalizing t with
  | nil => exact (List.map_eq_nil_iff.mp hflags.symm).symm
  | cons b s ih =>
    cases t with
    | nil => cases hflags
    | cons c t =>
      rw [List.map_cons, List.map_cons, List.cons.injEq] at hflags
      obtain ⟨hflag, hflags⟩ := hflags
      rw [rawMagnitude, rawMagnitude] at hraw
      have hgroup : (b.setWidth 7 : Group) = c.setWidth 7 := by
        apply BitVec.eq_of_toNat_eq
        rw [octet_group_toNat, octet_group_toNat]
        omega
      have hbc : b = c := by
        rw [← tag_untag b, ← tag_untag c, untag, untag, hflag, hgroup]
      rw [hbc, ih hflags (by omega)]

/-- Where the terminator is the last octet, the flags are known. -/
theorem flags_of_terminatorIndex {s : List Byte} (h : terminatorIndex s = some (s.length - 1)) :
    s.map (·.getLsbD 7) = List.replicate (s.length - 1) true ++ [false] := by
  obtain ⟨p, b, t, rfl, hlen, hb, hp⟩ := terminatorIndex_eq_some.mp h
  have ht : t = [] := by
    rw [← List.length_eq_zero_iff]
    simp only [List.length_append, List.length_cons] at hlen
    omega
  subst ht
  rw [← hlen, List.map_append, List.map_cons, hb, List.map_eq_replicate_iff.mpr hp, List.map_nil]

/-- A cut behind the terminator does not move it. -/
theorem terminatorIndex_take_of_lt {s : List Byte} {k n : Nat} (h : terminatorIndex s = some k) (hn : k < n) :
    terminatorIndex (s.take n) = some k := by
  obtain ⟨p, b, t, rfl, rfl, hb, hp⟩ := terminatorIndex_eq_some.mp h
  obtain ⟨j, rfl⟩ : ∃ j, n = p.length + (j + 1) := ⟨n - p.length - 1, by omega⟩
  refine terminatorIndex_eq_some.mpr ⟨p, b, t.take j, ?_, rfl, hb, hp⟩
  rw [List.take_length_add_append, List.take_succ_cons]

/-- Settles O26: the length bound is that of the magnitude, and a list as long as the encoding has its flags too. -/
theorem canonicalFormIsShortest : Obligations.CanonicalFormIsShortest := by
  intro s d h hovf
  obtain ⟨hterm, hpos, hlen, hmag, hd⟩ := gdec_ok h
  have hraw : rawMagnitude (s.take d.consumed) = d.mag.toNat := by
    have hlt : ¬ 2 ^ 64 ≤ rawMagnitude (s.take d.consumed) := of_decide_eq_false (hd.symm.trans hovf)
    rw [hmag, BitVec.toNat_ofNat, Nat.mod_eq_of_lt (Nat.not_le.mp hlt)]
  have hlength : (s.take d.consumed).length = d.consumed := List.length_take_of_le hlen
  have hbound := rawMagnitude_lt (s.take d.consumed)
  rw [hlength, hraw] at hbound
  refine ⟨(genc_length_le_iff _ hpos).mpr hbound, fun heq => ?_, fun heq => ?_⟩
  · have hlast : terminatorIndex (s.take d.consumed) = some ((s.take d.consumed).length - 1) := by
      rw [hlength, terminatorIndex_take_of_lt hterm (by omega)]
    refine eq_of_flags_of_rawMagnitude ?_ (hraw.trans (rawMagnitude_genc d.mag).symm)
    rw [flags_of_terminatorIndex hlast, flags_of_terminatorIndex (terminatorIndex_genc d.mag), hlength, heq]
  · rw [← heq, hlength]

end Sys2Proof.Machine

/-! PROOFS. The instructions one by one: the four commands (43_sequencing_and_host.md) and the two classes of octet in
either direction (40_group_codec.md). -/

namespace Sys2Proof.Machine

/-! ### The commands -/

/-- Settles O29. -/
theorem startsAreRefusedWhileRunning : Obligations.StartsAreRefusedWhileRunning := by
  intro s hp code
  rw [exec_decodeCommand, whenReady_of_run hp]

/-- Settles O30: the start of either direction, field by field. -/
theorem commandFrame : Obligations.CommandFrame := by
  intro s t code h
  rw [exec_decodeCommand, whenReady_next_iff] at h
  obtain ⟨-, rfl⟩ := h
  cases hd : isDecode code <;> simp

/-! ### The octet an encode writes, field by field -/

@[simp] theorem wroteOctet_op (b : Byte) (s : State) : (wroteOctet b s).op = s.op := rfl
@[simp] theorem wroteOctet_val (b : Byte) (s : State) : (wroteOctet b s).val = s.val := rfl
@[simp] theorem wroteOctet_mag (b : Byte) (s : State) : (wroteOctet b s).mag = s.mag := rfl
@[simp] theorem wroteOctet_cnt (b : Byte) (s : State) : (wroteOctet b s).cnt = s.cnt + 1 := rfl
@[simp] theorem wroteOctet_phase (b : Byte) (s : State) : (wroteOctet b s).phase = s.phase := rfl
@[simp] theorem wroteOctet_err (b : Byte) (s : State) : (wroteOctet b s).err = s.err := rfl
@[simp] theorem wroteOctet_ovf (b : Byte) (s : State) : (wroteOctet b s).ovf = s.ovf := rfl
@[simp] theorem wroteOctet_obuf (b : Byte) (s : State) :
    (wroteOctet b s).obuf = obufStore s.obuf s.cnt.toNat b := rfl
@[simp] theorem wroteOctet_value (b : Byte) (s : State) : (wroteOctet b s).value = s.value := rfl
@[simp] theorem wroteOctet_ibuf (b : Byte) (s : State) : (wroteOctet b s).ibuf = s.ibuf := rfl
@[simp] theorem wroteOctet_moves (b : Byte) (s : State) : (wroteOctet b s).moves = s.moves := rfl
@[simp] theorem wroteOctet_got (b : Byte) (s : State) : (wroteOctet b s).got = s.got := rfl
@[simp] theorem wroteOctet_draws (b : Byte) (s : State) : (wroteOctet b s).draws = s.draws := rfl

/-! ### The octets by direction -/

theorem byDirection_of_ready {c e : State → Result} {s : State} (h : s.phase ≠ .run) :
    byDirection c e s = .refused .noOperationRunning := by
  cases hp : s.phase with
  | run => exact absurd hp h
  | idle => simp only [byDirection, hp]
  | done => simp only [byDirection, hp]

theorem byDirection_of_encode {c e : State → Result} {s : State} (hp : s.phase = .run) (hd : isDecode s.op = false) :
    byDirection c e s = e s := by
  simp only [byDirection, hp, hd, Bool.false_eq_true, if_false]

theorem exec_cont_encode (g : Group) {s : State} (hp : s.phase = .run) (hd : isDecode s.op = false) :
    exec (.cont g) s = emitCont g s := byDirection_of_encode hp hd

theorem exec_last_encode (g : Group) {s : State} (hp : s.phase = .run) (hd : isDecode s.op = false) :
    exec (.last g) s = emitLast g s := byDirection_of_encode hp hd

/-- `CONT` in an encode answers the state with its octet written and the magnitude shifted. -/
theorem exec_cont_encode_next {g : Group} {s t : State} (hd : isDecode s.op = false) (h : exec (.cont g) s = .next t) :
    t = shiftMagnitude (wroteOctet (tag true g) s) := by
  obtain ⟨-, ⟨hd', -⟩ | ⟨-, -, -, -, rfl⟩⟩ := execCont_next_iff.mp h
  · rw [hd] at hd'
    cases hd'
  · rfl

/-- `LAST` in an encode answers the state with its octet written and the operation finished. -/
theorem exec_last_encode_next {g : Group} {s t : State} (hd : isDecode s.op = false) (h : exec (.last g) s = .next t) :
    t = finishEncode (wroteOctet (tag false g) s) := by
  obtain ⟨-, ⟨hd', -⟩ | ⟨-, -, -, -, rfl⟩⟩ := execLast_next_iff.mp h
  · rw [hd] at hd'
    cases hd'
  · rfl

/-- `CONT` in a decode answers the state with its group packed. -/
theorem exec_cont_decode_next {g : Group} {s t : State} (hd : isDecode s.op = true) (h : exec (.cont g) s = .next t) :
    t = packGroup g s := by
  obtain ⟨-, ⟨-, rfl⟩ | ⟨hd', -⟩⟩ := execCont_next_iff.mp h
  · rfl
  · rw [hd] at hd'
    cases hd'

/-- `LAST` in a decode answers the state with its group packed and the value given. -/
theorem exec_last_decode_next {g : Group} {s t : State} (hd : isDecode s.op = true) (h : exec (.last g) s = .next t) :
    t = finishDecode (packGroup g s) := by
  obtain ⟨-, ⟨-, rfl⟩ | ⟨hd', -⟩⟩ := execLast_next_iff.mp h
  · rfl
  · rw [hd] at hd'
    cases hd'

/-- Settles O31. -/
theorem encodeEmitsTheOctetDue : Obligations.EncodeEmitsTheOctetDue := by
  intro s hp hd hc
  have hidx : s.cnt.toNat < 10 := Nat.lt_succ_of_le hc
  exact ⟨fun hm => execCont_next_iff.mpr ⟨hp, .inr ⟨hd, hm, rfl, hidx, rfl⟩⟩,
    fun hm => execLast_next_iff.mpr ⟨hp, .inr ⟨hd, hm, rfl, hidx, rfl⟩⟩⟩

/-- Settles O32. -/
theorem decodeConsumesTheOctet : Obligations.DecodeConsumesTheOctet :=
  fun _ _ hp hd =>
    ⟨execCont_next_iff.mpr ⟨hp, .inl ⟨hd, rfl⟩⟩, execLast_next_iff.mpr ⟨hp, .inl ⟨hd, rfl⟩⟩⟩

/-! ### Where the octets stop -/

theorem emitOctet_of_past (b : Byte) {s : State} (h : 9 < s.cnt.toNat) : emitOctet b s = .fault .obufIndex :=
  if_neg (Nat.not_lt.mpr h)

theorem emitCont_of_not_due {g : Group} {s : State} (h : ¬ (127 < s.mag.toNat ∧ g = grp s.mag)) :
    emitCont g s = .refused .octetNotDue := if_neg (mt octetDue_cont_iff.mp h)

theorem emitLast_of_not_due {g : Group} {s : State} (h : ¬ (s.mag.toNat ≤ 127 ∧ g = grp s.mag)) :
    emitLast g s = .refused .octetNotDue := if_neg (mt octetDue_last_iff.mp h)

theorem emitCont_of_past {g : Group} {s : State} (hm : 127 < s.mag.toNat) (hg : g = grp s.mag)
    (hc : 9 < s.cnt.toNat) : emitCont g s = .fault .obufIndex := by
  rw [emitCont, if_pos (octetDue_cont_iff.mpr ⟨hm, hg⟩), emitOctet_of_past _ hc, andThen]

theorem emitLast_of_past {g : Group} {s : State} (hm : s.mag.toNat ≤ 127) (hg : g = grp s.mag)
    (hc : 9 < s.cnt.toNat) : emitLast g s = .fault .obufIndex := by
  rw [emitLast, if_pos (octetDue_last_iff.mpr ⟨hm, hg⟩), emitOctet_of_past _ hc, andThen]

/-- Settles O33: no operation, another octet due, or no index left. -/
theorem octetsStopHere : Obligations.OctetsStopHere := by
  intro s g
  refine ⟨fun hp => ⟨byDirection_of_ready hp, byDirection_of_ready hp⟩, fun hp hd => ?_⟩
  rw [exec_cont_encode g hp hd, exec_last_encode g hp hd]
  exact ⟨emitCont_of_not_due, emitLast_of_not_due, emitCont_of_past, emitLast_of_past⟩

/-! ### What the octets leave unchanged -/

/-- Settles O34: an octet writes `OBUF[CNT]` and `CNT`; `CONT` adds the shift of `MAG`, `LAST` the new `PHASE`. -/
theorem emittedOctetFrame : Obligations.EmittedOctetFrame := by
  intro s t g hd h
  have hcont : exec (.cont g) s = .next t → t.phase = s.phase := by
    intro h
    rw [exec_cont_encode_next hd h]
    rfl
  have hlast : exec (.last g) s = .next t → t.mag = s.mag := by
    intro h
    rw [exec_last_encode_next hd h]
    rfl
  rcases h with h | h
  · rw [exec_cont_encode_next hd h] at hcont hlast ⊢
    exact ⟨fun _ => obufRead_store_other _ _, rfl, rfl, rfl, rfl, rfl, rfl, rfl, rfl, rfl, hcont, hlast⟩
  · rw [exec_last_encode_next hd h] at hcont hlast ⊢
    exact ⟨fun _ => obufRead_store_other _ _, rfl, rfl, rfl, rfl, rfl, rfl, rfl, rfl, rfl, hcont, hlast⟩

/-- Settles O35: packing a group writes `MAG`, `OVF` and `CNT`; `LAST` adds `VAL` and `PHASE`. -/
theorem consumedOctetFrame : Obligations.ConsumedOctetFrame := by
  intro s t g hd h
  have hcont : exec (.cont g) s = .next t → t.val = s.val ∧ t.phase = s.phase := by
    intro h
    rw [exec_cont_decode_next hd h]
    exact ⟨rfl, rfl⟩
  rcases h with h | h
  · rw [exec_cont_decode_next hd h] at hcont ⊢
    exact ⟨fun _ => rfl, rfl, rfl, rfl, rfl, rfl, rfl, rfl, hcont⟩
  · rw [exec_last_decode_next hd h] at hcont ⊢
    exact ⟨fun _ => rfl, rfl, rfl, rfl, rfl, rfl, rfl, rfl, hcont⟩

end Sys2Proof.Machine

/-! PROOFS. One step of the machine: the engine's turn (40_group_codec.md R115, R117), who writes which register
(10_state.md), and the host's moves (43_sequencing_and_host.md R198). -/

namespace Sys2Proof.Machine

/-! ### The engine's turn -/

theorem engineTurn_encode {u : State} (hp : u.phase = .run) (hd : isDecode u.op = false) :
    engineTurn u = .inl (octetDue u, u) := by
  simp only [engineTurn, hp, hd, Bool.false_eq_true, if_false]

theorem engineTurn_octet {u : State} {b : Byte} (hp : u.phase = .run) (hd : isDecode u.op = true)
    (hc : u.cnt ≠ ilen u) (hb : u.ibuf[u.cnt.toNat]? = some b) : engineTurn u = .inl (decodeOctet b, u) := by
  simp only [engineTurn, hp, hd, if_true, if_neg hc, ibufRead, inputIndex, hb]

theorem engineTurn_absent {u : State} (hp : u.phase = .run) (hd : isDecode u.op = true) (hc : u.cnt ≠ ilen u)
    (hlen : u.ibuf.length ≤ u.cnt.toNat) : engineTurn u = .inr (.fault .ibufIndex) := by
  simp only [engineTurn, hp, hd, if_true, if_neg hc, ibufRead, inputIndex, List.getElem?_eq_none hlen]

theorem step_of_engineTurn_inl {s u v : State} {i : Instr} (h : engineToMove s u) (hp : s.phase = .run)
    (ht : engineTurn u = .inl (i, v)) : step s = exec i v := by
  rw [step, nextTurn_of_engineToMove h hp, ht]

theorem step_of_engineTurn_inr {s u : State} {r : Result} (h : engineToMove s u) (hp : s.phase = .run)
    (ht : engineTurn u = .inr r) : step s = r := by
  rw [step, nextTurn_of_engineToMove h hp, ht]

theorem step_start {s : State} {code : Code} {rest : List HostMove} (hm : s.moves = .start code :: rest) :
    step s = exec (decodeCommand code) { s with moves := rest } := by
  simp only [step, nextTurn, hm]

/-- Settles O36: the host's start, and the two forms of the engine's turn. -/
theorem stepRunsTheDecodedInstruction : Obligations.StepRunsTheDecodedInstruction := by
  refine ⟨fun s code rest => step_start, fun s t b h hp hd hc hb => ?_, fun s t h hp hd => ?_⟩
  · obtain ⟨rest, rfl⟩ := engineToMove_frame h
    exact step_of_engineTurn_inl h hp (engineTurn_octet hp hd hc hb)
  · obtain ⟨rest, rfl⟩ := engineToMove_frame h
    exact step_of_engineTurn_inl h hp (engineTurn_encode hp hd)

/-! ### Where the engine faults -/

/-- A decode that finds an octet, of either class, answers a next state. -/
theorem step_decode_octet_next {s t : State} {b : Byte} (h : engineToMove s t) (hp : s.phase = .run)
    (hd : isDecode s.op = true) (hc : s.cnt ≠ ilen s) (hb : s.ibuf[s.cnt.toNat]? = some b) :
    ∃ u, step s = .next u := by
  obtain ⟨hcont, hlast⟩ := step_decode_octet h hp hd hc hb
  cases hf : (untag b).1
  · exact ⟨_, hlast hf⟩
  · exact ⟨_, hcont hf⟩

/-- An encode with an index of `OBUF` to write answers a next state. -/
theorem step_encode_next {s t : State} (h : engineToMove s t) (hp : s.phase = .run) (hd : isDecode s.op = false)
    (hc : s.cnt.toNat ≤ 9) : ∃ u, step s = .next u := by
  obtain ⟨hcont, hlast⟩ := step_encode h hp hd hc
  rcases Nat.lt_or_ge 127 s.mag.toNat with hm | hm
  · exact ⟨_, hcont hm⟩
  · exact ⟨_, hlast (Nat.not_lt.mpr hm)⟩

/-- Past the end of `OBUF` the octet due faults, of whichever class it is. -/
theorem exec_octetDue_of_past {s : State} (hp : s.phase = .run) (hd : isDecode s.op = false) (hc : 9 < s.cnt.toNat) :
    exec (octetDue s) s = .fault .obufIndex := by
  rcases Nat.lt_or_ge 127 s.mag.toNat with hm | hm
  · rw [octetDue_cont_iff.mpr ⟨hm, rfl⟩, exec_cont_encode _ hp hd]
    exact emitCont_of_past hm rfl hc
  · rw [octetDue_last_iff.mpr ⟨hm, rfl⟩, exec_last_encode _ hp hd]
    exact emitLast_of_past hm rfl hc

theorem step_encode_past {s t : State} (h : engineToMove s t) (hp : s.phase = .run) (hd : isDecode s.op = false)
    (hc : 9 < s.cnt.toNat) : step s = .fault .obufIndex := by
  obtain ⟨rest, rfl⟩ := engineToMove_frame h
  exact (step_of_engineTurn_inl h hp (engineTurn_encode hp hd)).trans (exec_octetDue_of_past hp hd hc)

theorem step_decode_fault_iff {s t : State} (h : engineToMove s t) (hp : s.phase = .run) (hd : isDecode s.op = true) :
    step s = .fault .ibufIndex ↔ s.cnt ≠ ilen s ∧ s.ibuf.length ≤ s.cnt.toNat := by
  constructor
  · intro hf
    have hc : s.cnt ≠ ilen s := by
      intro hc
      rw [step_decode_exhausted h hp hd hc] at hf
      cases hf
    refine ⟨hc, Nat.not_lt.mp fun hlt => ?_⟩
    obtain ⟨u, hu⟩ := step_decode_octet_next h hp hd hc (List.getElem?_eq_getElem hlt)
    rw [hu] at hf
    cases hf
  · rintro ⟨hc, hlen⟩
    obtain ⟨rest, rfl⟩ := engineToMove_frame h
    exact step_of_engineTurn_inr h hp (engineTurn_absent hp hd hc hlen)

theorem step_encode_fault_iff {s t : State} (h : engineToMove s t) (hp : s.phase = .run)
    (hd : isDecode s.op = false) : step s = .fault .obufIndex ↔ 9 < s.cnt.toNat := by
  refine ⟨fun hf => Nat.not_le.mp fun hc => ?_, step_encode_past h hp hd⟩
  obtain ⟨u, hu⟩ := step_encode_next h hp hd hc
  rw [hu] at hf
  cases hf

theorem ilen_toNat {s : State} (h : inputWellFormed s.ibuf = true) : (ilen s).toNat = s.ibuf.length := by
  rw [inputWellFormed_iff] at h
  rw [ilen, BitVec.toNat_ofNat]
  omega

theorem cnt_eq_ilen_iff {s : State} (h : inputWellFormed s.ibuf = true) :
    s.cnt = ilen s ↔ s.cnt.toNat = s.ibuf.length := by
  rw [← BitVec.toNat_inj, ilen_toNat h]

theorem Inv.decodeRunning {s : State} (h : Inv s) (hp : s.phase = .run) (hd : isDecode s.op = true) :
    decodeRunning s := by
  obtain ⟨_, _, h⟩ := h
  simpa [hp, hd] using h

/-- A decode within its input either is at its end or has an octet to read. -/
theorem step_decode_next {s t : State} (h : engineToMove s t) (hp : s.phase = .run) (hd : isDecode s.op = true)
    (hc : s.cnt.toNat ≤ s.ibuf.length) (hw : inputWellFormed s.ibuf = true) : ∃ u, step s = .next u := by
  by_cases hend : s.cnt = ilen s
  · exact ⟨_, step_decode_exhausted h hp hd hend⟩
  · have hlt : s.cnt.toNat < s.ibuf.length := Nat.lt_of_le_of_ne hc (mt (cnt_eq_ilen_iff hw).mpr hend)
    exact step_decode_octet_next h hp hd hend (List.getElem?_eq_getElem hlt)

/-- The engine of a state that meets the invariant is never stopped. -/
theorem Inv.engine_next {s t : State} (hi : Inv s) (h : engineToMove s t) (hp : s.phase = .run) :
    ∃ u, step s = .next u := by
  cases hd : isDecode s.op
  · exact step_encode_next h hp hd (encodeRunning_cnt_le (hi.encodeRunning hp hd))
  · obtain ⟨_, hc, _⟩ := hi.decodeRunning hp hd
    obtain ⟨_, hw, _⟩ := hi
    exact step_decode_next h hp hd hc hw

/-- Settles O39. -/
theorem engineFaultsOnlyAtAbsentIndices : Obligations.EngineFaultsOnlyAtAbsentIndices :=
  ⟨fun _ _ h hp => ⟨step_decode_fault_iff h hp, step_encode_fault_iff h hp⟩, fun _ _ h hi => hi.engine_next h⟩

/-! ### What an engine step does to each register -/

/-- An engine step leaves `OP` and all of the host's side. -/
theorem engineEffect_frame {u t : State} (h : engineEffect u t) :
    t.op = u.op ∧ t.value = u.value ∧ t.ibuf = u.ibuf ∧ t.moves = u.moves ∧ t.got = u.got ∧ t.draws = u.draws := by
  rcases h with ⟨-, -, rfl⟩ | ⟨-, -, b, -, ⟨-, rfl⟩ | ⟨-, rfl⟩⟩ | ⟨-, -, ⟨-, rfl⟩ | ⟨-, rfl⟩⟩ <;> simp

/-- An encode step leaves `VAL` and both flags, and every octet of `OBUF` but the one at `CNT`. -/
theorem engineEffect_encode_frame {u t : State} (h : engineEffect u t) (hd : isDecode u.op = false) :
    t.val = u.val ∧ t.err = u.err ∧ t.ovf = u.ovf ∧
      ∀ i, i ≠ u.cnt.toNat → obufRead t.obuf i = obufRead u.obuf i := by
  rcases h with ⟨hd', -⟩ | ⟨hd', -⟩ | ⟨-, -, ⟨-, rfl⟩ | ⟨-, rfl⟩⟩
  · rw [hd] at hd'; cases hd'
  · rw [hd] at hd'; cases hd'
  · exact ⟨rfl, rfl, rfl, fun _ => obufRead_store_other _ _⟩
  · exact ⟨rfl, rfl, rfl, fun _ => obufRead_store_other _ _⟩

/-- `OBUF` is left by every step that is not an encode's. -/
theorem engineEffect_obuf {u t : State} (h : engineEffect u t) : t.obuf = u.obuf ∨ isDecode u.op = false := by
  rcases h with ⟨-, -, rfl⟩ | ⟨-, -, b, -, ⟨-, rfl⟩ | ⟨-, rfl⟩⟩ | ⟨hd, -⟩
  exacts [.inl rfl, .inl rfl, .inl rfl, .inr hd]

/-- `ERR` is left by every step but that of a decode whose input is exhausted. -/
theorem engineEffect_err {u t : State} (h : engineEffect u t) :
    t.err = u.err ∨ (isDecode u.op = true ∧ u.cnt = ilen u) := by
  rcases h with ⟨hd, hc, -⟩ | ⟨-, -, b, -, ⟨-, rfl⟩ | ⟨-, rfl⟩⟩ | ⟨-, -, ⟨-, rfl⟩ | ⟨-, rfl⟩⟩
  exacts [.inr ⟨hd, hc⟩, .inl rfl, .inl rfl, .inl rfl, .inl rfl]

/-- `OVF` is sticky within an operation (10_state.md R27). -/
theorem engineEffect_ovf {u t : State} (h : engineEffect u t) (ho : u.ovf = true) : t.ovf = true := by
  rcases h with ⟨-, -, rfl⟩ | ⟨-, -, b, -, ⟨-, rfl⟩ | ⟨-, rfl⟩⟩ | ⟨-, -, ⟨-, rfl⟩ | ⟨-, rfl⟩⟩ <;> simp [ho]

/-- The octet behind each new `PHASE`: a continuation octet keeps `RUN`, and `DONE` comes from a terminating octet or an
exhausted input. -/
theorem engineEffect_phase {u t : State} (hp : u.phase = .run) (h : engineEffect u t) :
    (t.phase = .run ∧ ∃ g, engineTurn u = .inl (.cont g, u)) ∨
      (t.phase = .done ∧ ((∃ g, engineTurn u = .inl (.last g, u)) ∨ (isDecode u.op = true ∧ u.cnt = ilen u))) := by
  rcases h with ⟨hd, hc, rfl⟩ | ⟨hd, hc, b, hb, ⟨hf, rfl⟩ | ⟨hf, rfl⟩⟩ | ⟨hd, -, ⟨hm, rfl⟩ | ⟨hm, rfl⟩⟩
  · exact .inr ⟨rfl, .inr ⟨hd, hc⟩⟩
  · exact .inl ⟨hp, b.setWidth 7, by rw [engineTurn_octet hp hd hc hb, decodeOctet, if_pos hf]⟩
  · exact .inr ⟨rfl, .inl ⟨b.setWidth 7, by
      rw [engineTurn_octet hp hd hc hb, decodeOctet, if_neg (Bool.eq_false_iff.mp hf)]⟩⟩
  · exact .inl ⟨hp, grp u.mag, by rw [engineTurn_encode hp hd, octetDue_cont_iff.mpr ⟨hm, rfl⟩]⟩
  · exact .inr ⟨rfl, .inl ⟨grp u.mag, by rw [engineTurn_encode hp hd, octetDue_last_iff.mpr ⟨hm, rfl⟩]⟩⟩

/-! ### A start of either direction, field by field -/

/-- The state a start of this code leaves (R191, R192). -/
def started (code : Code) (s : State) : State := if isDecode code then startDecode code s else startEncode code s

theorem started_of_decode {code : Code} (h : isDecode code = true) (s : State) : started code s = startDecode code s :=
  if_pos h

theorem started_of_encode {code : Code} (h : isDecode code = false) (s : State) : started code s = startEncode code s :=
  if_neg (Bool.eq_false_iff.mp h)

@[simp] theorem started_phase (code : Code) (s : State) : (started code s).phase = .run := by
  rw [started]; split <;> rfl
@[simp] theorem started_err (code : Code) (s : State) : (started code s).err = false := by
  rw [started]; split <;> rfl
@[simp] theorem started_obuf (code : Code) (s : State) : (started code s).obuf = s.obuf := by
  rw [started]; split <;> rfl
@[simp] theorem started_moves (code : Code) (s : State) : (started code s).moves = s.moves := by
  rw [started]; split <;> rfl

/-- With no operation running, a start as the host's next move leaves the started operation. -/
theorem step_start_of_ready {s : State} {code : Code} {rest : List HostMove} (hp : s.phase ≠ .run)
    (hm : s.moves = .start code :: rest) : step s = .next (started code { s with moves := rest }) := by
  rw [step_start hm, exec_decodeCommand]
  exact whenReady_of_ready hp

/-! ### Who writes which register -/

theorem phaseCode_ne_three (p : Phase) : phaseCode p ≠ 0b11 := by
  cases p <;> decide

/-- Settles O40: a start, an engine step, a move of the host alone, or a reset. -/
theorem phaseTransitions : Obligations.PhaseTransitions := by
  refine ⟨⟨rfl, rfl, rfl, phaseCode_ne_three⟩, rfl, fun s t h => ?_⟩
  rcases step_cases h with ⟨code, rest, hm, hp, rfl⟩ | ⟨u, hu, hp, he⟩ | ⟨hsame, -, -, hrun, -⟩ | ⟨rest, hm, rfl⟩
  · have hphase := started_phase code { s with moves := rest }
    exact ⟨fun _ => .inr ⟨hphase, code, rest, hm⟩, fun _ => .inr (.inl ⟨hphase, code, rest, hm⟩),
      fun hr => absurd hr hp⟩
  · rw [hp]
    refine ⟨nofun, nofun, fun _ => ?_⟩
    rw [nextTurn_of_engineToMove hu hp]
    have hphase := engineEffect_phase (engineToMove_phase hu ▸ hp) he
    obtain ⟨rest, rfl⟩ := engineToMove_frame hu
    rcases hphase with ⟨ht, g, hg⟩ | ⟨ht, ⟨g, hg⟩ | hend⟩
    · exact .inl ⟨ht, .inl ⟨g, _, hg⟩⟩
    · exact .inr (.inl ⟨ht, ⟨_, hu⟩, .inl ⟨g, _, hg⟩⟩)
    · exact .inr (.inl ⟨ht, ⟨_, hu⟩, .inr hend⟩)
  · obtain ⟨-, -, -, -, hphase, -⟩ := hsame
    rw [hphase]
    exact ⟨.inl, .inl, fun hp => .inl ⟨hp, .inr (hrun hp).2⟩⟩
  · exact ⟨fun _ => .inl rfl, fun _ => .inr (.inr ⟨rfl, rest, hm⟩), fun _ => .inr (.inr ⟨rfl, rest, hm⟩)⟩

/-- Settles O41: of the cases of a step only the engine's writes a register that no start writes. -/
theorem registerWriters : Obligations.RegisterWriters := by
  intro s t h hreset
  rcases step_cases h with ⟨code, rest, hm, hp, rfl⟩ | ⟨u, hu, hp, he⟩ | ⟨hsame, -, -, -, -⟩ | ⟨rest, hm, -⟩
  · have hstart : startsNext s := ⟨code, rest, hm⟩
    have hobuf := started_obuf code { s with moves := rest }
    have herr := started_err code { s with moves := rest }
    exact ⟨fun hn => absurd hstart hn, fun hne => absurd hobuf hne,
      fun _ ht => absurd (herr.symm.trans ht) Bool.false_ne_true, fun hn => absurd hstart hn⟩
  · obtain ⟨hop, -⟩ := engineEffect_frame he
    have hframe := engineEffect_encode_frame he
    have hobuf := engineEffect_obuf he
    have herr := engineEffect_err he
    have hovf := engineEffect_ovf he
    have hmove : ∃ u, engineToMove s u := ⟨u, hu⟩
    obtain ⟨rest, rfl⟩ := engineToMove_frame hu
    refine ⟨fun _ => ⟨hop, fun hd => ?_⟩, fun hne => ⟨hp, hobuf.resolve_left hne, hmove⟩, fun h0 h1 => ?_,
      fun _ => hovf⟩
    · obtain ⟨hval, herr, hovf, -⟩ := hframe hd
      exact ⟨hval, herr, hovf⟩
    · exact ⟨hp, herr.resolve_left (by simp [h0, h1])⟩
  · obtain ⟨hop, hval, -, -, -, herr, hovf, hobuf⟩ := hsame
    exact ⟨fun _ => ⟨hop, fun _ => ⟨hval, herr, hovf⟩⟩, fun hne => absurd hobuf hne,
      fun h0 h1 => absurd (h0.symm.trans (herr.symm.trans h1)) Bool.false_ne_true, fun _ h1 => hovf.trans h1⟩
  · exact absurd ⟨rest, hm⟩ hreset

/-- The response is read off the block alone. -/
theorem response_of_sameBlock {s t : State} (h : sameBlock s t) : response t = response s := by
  obtain ⟨hop, hval, -, hcnt, hphase, herr, hovf, hobuf⟩ := h
  simp only [response, hop, hval, hcnt, hphase, herr, hovf, hobuf]

/-- Settles O42: with no operation running the engine has no step, so the host alone moves. -/
theorem resultIsHeld : Obligations.ResultIsHeld := by
  intro s t hp h hstart hreset
  rcases step_cases h with ⟨code, rest, hm, -⟩ | ⟨u, -, hr, -⟩ | ⟨hsame, -⟩ | ⟨rest, hm, -⟩
  · exact absurd ⟨code, rest, hm⟩ hstart
  · exact absurd hr hp
  · have hresponse := response_of_sameBlock hsame
    obtain ⟨hop, hval, hmag, hcnt, hphase, herr, hovf, hobuf⟩ := hsame
    exact ⟨hop, hval, hmag, hcnt, hphase, herr, hovf, hobuf, hresponse⟩
  · exact absurd ⟨rest, hm⟩ hreset

/-! ### The host's moves -/

section
variable {s : State} {rest : List HostMove}

theorem step_setValue {v : Word} (hm : s.moves = .setValue v :: rest) :
    step s = driveValue v { s with moves := rest } := by
  simp only [step, nextTurn, hm]

theorem step_setInput {octets : List Byte} (hm : s.moves = .setInput octets :: rest) :
    step s = presentInput octets { s with moves := rest } := by
  simp only [step, nextTurn, hm]

theorem step_readStatus (hm : s.moves = .readStatus :: rest) : step s = hostReadStatus { s with moves := rest } := by
  simp only [step, nextTurn, hm]

theorem step_readVal (hm : s.moves = .readVal :: rest) : step s = hostReadVal { s with moves := rest } := by
  simp only [step, nextTurn, hm]

theorem step_readCnt (hm : s.moves = .readCnt :: rest) : step s = hostReadCnt { s with moves := rest } := by
  simp only [step, nextTurn, hm]

theorem step_readObuf {i : Nat} (hm : s.moves = .readObuf i :: rest) :
    step s = hostReadObuf i { s with moves := rest } := by
  simp only [step, nextTurn, hm]

theorem step_reset (hm : s.moves = .reset :: rest) : step s = .next (resetBlock { s with moves := rest }) := by
  simp only [step, nextTurn, hm]

end

/-- Settles O43. -/
theorem operandIsLatched : Obligations.OperandIsLatched := fun _ _ _ => step_setValue

/-- Settles O44: the state after reset is a fixed state. -/
theorem resetState : Obligations.ResetState := ⟨rfl, rfl, rfl, by decide, rfl⟩

theorem exec_command_of_ready {s : State} (hp : s.phase ≠ .run) (code : Code) :
    ∃ u, exec (decodeCommand code) s = .next u :=
  ⟨_, (exec_decodeCommand code s).trans (whenReady_of_ready hp)⟩

/-- Settles O45: the block as reset leaves it, with the host's side kept; being in `IDLE` it accepts every start. -/
theorem resetFromAnyState : Obligations.ResetFromAnyState :=
  fun _ _ hm => ⟨_, step_reset hm, rfl, rfl, rfl, rfl, rfl, rfl, rfl, rfl, exec_command_of_ready nofun⟩

/-- `STATUS` by its bits (10_state.md R28). -/
theorem statusBits_bits (p : Phase) (ovf err : Bool) :
    (statusBits p ovf err).getLsbD 0 = err ∧ (statusBits p ovf err).getLsbD 1 = ovf ∧
      (statusBits p ovf err).extractLsb' 2 2 = phaseCode p := by
  cases p <;> revert ovf err <;> decide

/-- What the host sees of `STATUS` is the view, but for bit 1 after an error (R27). -/
theorem statusForHost_eq (s : State) : ∃ ovf, statusForHost s = statusBits s.phase ovf s.err ∧
    (endedInError s = false → statusForHost s = statusView s) := by
  cases h : endedInError s
  · exact ⟨s.ovf, by simp [statusForHost, h, statusView]⟩
  · exact ⟨Config.freeBit s.draws, by simp [statusForHost, h]⟩

/-- A read of `STATUS` hands over what the host sees of it and counts a draw where bit 1 is a free value. -/
theorem hostReadStatus_eq (s : State) :
    hostReadStatus s = .next { s with
      got := s.got ++ [.status (statusForHost s)], draws := if endedInError s then s.draws + 1 else s.draws } := by
  rw [hostReadStatus]
  split <;> rfl

/-- Settles O46: the bits of the view, and a read that hands them over. -/
theorem statusIsReadable : Obligations.StatusIsReadable := by
  refine ⟨fun s => statusBits_bits s.phase s.ovf s.err, fun s rest hm => ?_⟩
  obtain ⟨ovf, hx, hview⟩ := statusForHost_eq { s with moves := rest }
  obtain ⟨herr, -, hphase⟩ := statusBits_bits s.phase ovf s.err
  refine ⟨_, _, (step_readStatus hm).trans (hostReadStatus_eq _), ?_, ?_, hview⟩
  · rw [hx]
    exact herr
  · rw [hx]
    exact hphase

/-! ### Reads of a result, and changes of the input -/

theorem resultSpecified_of_done {s : State} (hp : s.phase = .done) (he : isDecode s.op = true → s.err = false) :
    resultSpecified s = true := by
  cases hd : isDecode s.op
  · simp [resultSpecified, hp, hd]
  · simp [resultSpecified, hp, hd, he hd]

theorem hostReadWord_of_run {w : Word → HostValue} {c : Word} {s : State} (hp : s.phase = .run) :
    hostReadWord w c s = .refused .readWhileRunning := by
  simp only [hostReadWord, hp]

/-- A word of a result that stands is handed over as it is. -/
theorem hostReadWord_of_done {w : Word → HostValue} {c : Word} {s : State} (hp : s.phase = .done)
    (he : isDecode s.op = true → s.err = false) : hostReadWord w c s = .next { s with got := s.got ++ [w c] } :=
  hostReadWord_next_iff.mpr ⟨by rw [hp]; nofun, .inl ⟨resultSpecified_of_done hp he, rfl⟩⟩

theorem hostReadObuf_of_run {i : Nat} {s : State} (hp : s.phase = .run) :
    hostReadObuf i s = .refused .readWhileRunning := by
  simp only [hostReadObuf, hp]

/-- An octet of a result that stands is handed over as it is. -/
theorem hostReadObuf_of_done {i : Nat} {s : State} (hp : s.phase = .done) (hd : isDecode s.op = false)
    (hc : i < s.cnt.toNat) (hi : i < 10) :
    hostReadObuf i s = .next { s with got := s.got ++ [.octet (obufRead s.obuf i)] } :=
  hostReadObuf_next_iff.mpr ⟨by rw [hp]; nofun, hi, .inl ⟨by simp [octetSpecified, hp, hd, hc], rfl⟩⟩

theorem hostReadObuf_of_past {i : Nat} {s : State} (hp : s.phase ≠ .run) (hi : 10 ≤ i) :
    hostReadObuf i s = .fault .obufIndex := by
  have hpast : ¬ i < Config.maxEncLen := Nat.not_lt.mpr hi
  cases h : s.phase with
  | run => exact absurd h hp
  | idle => simp only [hostReadObuf, h, if_neg hpast]
  | done => simp only [hostReadObuf, h, if_neg hpast]

/-- Settles O47: each read by phase. -/
theorem resultsAreReadableWhenDone : Obligations.ResultsAreReadableWhenDone := by
  refine fun s rest => ⟨fun hm => ?_, fun hm => ?_, fun i hm => ?_⟩
  · rw [step_readVal hm]
    exact ⟨fun hp => hostReadWord_of_run hp, fun hp he => hostReadWord_of_done hp he⟩
  · rw [step_readCnt hm]
    exact ⟨fun hp => hostReadWord_of_run hp, fun hp he => hostReadWord_of_done hp he⟩
  · rw [step_readObuf hm]
    exact ⟨fun hp => hostReadObuf_of_run hp, fun hp hd hc hi => hostReadObuf_of_done hp hd hc hi,
      fun hp hi => hostReadObuf_of_past hp hi⟩

theorem presentInput_of_run {octets : List Byte} {s : State} (hp : s.phase = .run) :
    presentInput octets s = .refused .inputChangedWhileRunning := by
  simp only [presentInput, hp]

theorem presentInput_of_too_long {octets : List Byte} {s : State} (hp : s.phase ≠ .run)
    (hlen : 2 ^ 64 - 1 < octets.length) : presentInput octets s = .refused .inputTooLong := by
  have hlong : ¬ inputWellFormed octets = true := mt inputWellFormed_iff.mp (Nat.not_le.mpr hlen)
  cases h : s.phase with
  | run => exact absurd h hp
  | idle => simp only [presentInput, h, if_neg hlong]
  | done => simp only [presentInput, h, if_neg hlong]

/-- No step from `RUN` changes the input (20_memory.md R63). -/
theorem ibuf_of_step_of_run {s t : State} (h : step s = .next t) (hp : s.phase = .run) : t.ibuf = s.ibuf := by
  rcases step_cases h with ⟨_, _, _, hready, _⟩ | ⟨u, hu, -, he⟩ | ⟨-, -, -, hrun, -⟩ | ⟨rest, -, rfl⟩
  · exact absurd hp hready
  · obtain ⟨-, -, hibuf, -⟩ := engineEffect_frame he
    obtain ⟨rest, rfl⟩ := engineToMove_frame hu
    exact hibuf
  · exact (hrun hp).1
  · rfl

/-- Settles O48: presenting an input by phase and length, and every other step from `RUN`. -/
theorem inputIsStableWhileRunning : Obligations.InputIsStableWhileRunning := by
  refine ⟨fun s octets rest hm => ?_, fun s t => ibuf_of_step_of_run⟩
  rw [step_setInput hm]
  exact ⟨fun hp => presentInput_of_run hp,
    fun hp hlen => presentInput_next_iff.mpr ⟨hp, inputWellFormed_iff.mpr hlen, rfl⟩,
    fun hp hlen => presentInput_of_too_long hp hlen⟩

end Sys2Proof.Machine

/-! PROOFS. The invariant (40_group_codec.md R118): what starts an operation meets it, and every step keeps it. -/

namespace Sys2Proof.Machine

/-! ### The invariant by phase and direction -/

section
variable {s : State}

theorem inv_of_encodeRunning (hm : Memory.wf s.obuf = true) (hw : inputWellFormed s.ibuf = true) (hp : s.phase = .run)
    (hd : isDecode s.op = false) (h : encodeRunning s) : Inv s :=
  ⟨hm, hw, by simpa only [hp, hd, Bool.false_eq_true, if_false] using h⟩

theorem inv_of_decodeRunning (hm : Memory.wf s.obuf = true) (hw : inputWellFormed s.ibuf = true) (hp : s.phase = .run)
    (hd : isDecode s.op = true) (h : decodeRunning s) : Inv s :=
  ⟨hm, hw, by simpa only [hp, hd, if_true] using h⟩

theorem inv_of_encodeDone (hm : Memory.wf s.obuf = true) (hw : inputWellFormed s.ibuf = true) (hp : s.phase = .done)
    (hd : isDecode s.op = false) (h : encodeDone s) : Inv s :=
  ⟨hm, hw, by simpa only [hp, hd, Bool.false_eq_true, if_false] using h⟩

theorem inv_of_decodeDone (hm : Memory.wf s.obuf = true) (hw : inputWellFormed s.ibuf = true) (hp : s.phase = .done)
    (hd : isDecode s.op = true) (h : decodeDone s) : Inv s :=
  ⟨hm, hw, by simpa only [hp, hd, if_true] using h⟩

end

/-- Settles O54. -/
theorem resetMeetsTheInvariant : Obligations.ResetMeetsTheInvariant := ⟨wf_reset, by decide, rfl, rfl⟩

/-! ### Starts -/

theorem encodeRunning_startEncode (code : Code) (s : State) : encodeRunning (startEncode code s) :=
  ⟨rfl, rfl, genc_length_pos _, rfl, nofun⟩

theorem decodeRunning_startDecode (code : Code) (s : State) : decodeRunning (startDecode code s) :=
  ⟨rfl, Nat.zero_le _, nofun, rfl, rfl⟩

theorem inv_started {s : State} (hi : Inv s) (code : Code) : Inv (started code s) := by
  obtain ⟨hm, hw, -⟩ := hi
  cases hd : isDecode code
  · rw [started_of_encode hd]
    exact inv_of_encodeRunning hm hw rfl hd (encodeRunning_startEncode code s)
  · rw [started_of_decode hd]
    exact inv_of_decodeRunning hm hw rfl hd (decodeRunning_startDecode code s)

/-! ### The engine's steps -/

theorem cnt_succ_toNat {c : Word} (h : c.toNat < 2 ^ 64 - 1) : (c + 1).toNat = c.toNat + 1 := by
  rw [BitVec.toNat_add]
  change (c.toNat + 1) % 2 ^ 64 = _
  omega

/-- The octet an encode owes is that of the encoding at `CNT`, and it continues while more follow. -/
theorem encodeRunning_due {u : State} (h : encodeRunning u) :
    (genc (encodeMagnitude u))[u.cnt.toNat]? = some (tag (decide (127 < u.mag.toNat)) (grp u.mag)) ∧
      (127 < u.mag.toNat ↔ u.cnt.toNat + 1 < (genc (encodeMagnitude u)).length) := by
  obtain ⟨-, -, hcnt, hmag, -⟩ := h
  rw [hmag]
  exact ⟨genc_getElem? hcnt, continues_iff_of_lt hcnt⟩

/-- Writing the octet of the encoding at `CNT` extends the output so far. -/
theorem outputSoFar_wroteOctet {u : State} {b : Byte} (h : encodeRunning u)
    (hb : (genc (encodeMagnitude u))[u.cnt.toNat]? = some b) : outputSoFar (wroteOctet b u) := by
  have hcnt := encodeRunning_cnt_le h
  obtain ⟨-, -, -, -, hout⟩ := h
  intro i hi
  rw [wroteOctet_cnt, cnt_succ_toNat (by omega)] at hi
  change (genc (encodeMagnitude u))[i]? = _
  rw [wroteOctet_obuf]
  rcases Nat.eq_or_lt_of_le (Nat.le_of_lt_succ hi) with rfl | hlt
  · rw [obufRead_store_same, hb]
  · rw [obufRead_store_other _ _ (Nat.ne_of_lt hlt), hout i hlt]

theorem encodeRunning_cont {u : State} (h : encodeRunning u) (hm : 127 < u.mag.toNat) :
    encodeRunning (shiftMagnitude (wroteOctet (tag true (grp u.mag)) u)) := by
  obtain ⟨hdue, hmore⟩ := encodeRunning_due h
  rw [decide_eq_true hm] at hdue
  have hout := outputSoFar_wroteOctet h hdue
  have hcnt : (u.cnt + 1).toNat = u.cnt.toNat + 1 := cnt_succ_toNat (by have := encodeRunning_cnt_le h; omega)
  obtain ⟨herr, hovf, -, hmag, -⟩ := h
  refine ⟨herr, hovf, hcnt ▸ hmore.mp hm, ?_, hout⟩
  change shr64 u.mag 7 = shr64 (encodeMagnitude u) (7 * (u.cnt + 1).toNat)
  rw [hmag, shr64_shr64, hcnt, Nat.mul_succ]
  rfl

theorem encodeDone_last {u : State} (h : encodeRunning u) (hm : ¬ 127 < u.mag.toNat) :
    encodeDone (finishEncode (wroteOctet (tag false (grp u.mag)) u)) := by
  obtain ⟨hdue, hmore⟩ := encodeRunning_due h
  rw [decide_eq_false hm] at hdue
  have hout := outputSoFar_wroteOctet h hdue
  have hcnt : (u.cnt + 1).toNat = u.cnt.toNat + 1 := cnt_succ_toNat (by have := encodeRunning_cnt_le h; omega)
  obtain ⟨herr, hovf, hlt, -, -⟩ := h
  refine ⟨herr, hovf, hcnt.trans ?_, hout⟩
  exact Nat.le_antisymm hlt (Nat.not_lt.mp (mt hmore.mpr hm))

/-- An octet read inside the input is behind `CNT` once it is counted. -/
theorem consumed_succ {u : State} {b : Byte} (hw : inputWellFormed u.ibuf = true)
    (hb : u.ibuf[u.cnt.toNat]? = some b) :
    (u.cnt + 1).toNat = u.cnt.toNat + 1 ∧ u.ibuf.take (u.cnt + 1).toNat = consumedOctets u ++ [b] := by
  obtain ⟨hlt, hget⟩ := List.getElem?_eq_some_iff.mp hb
  have hcnt : (u.cnt + 1).toNat = u.cnt.toNat + 1 :=
    cnt_succ_toNat (hlt.trans_le (inputWellFormed_iff.mp hw))
  exact ⟨hcnt, by rw [hcnt, List.take_succ_eq_append_getElem hlt, hget, consumedOctets]⟩

/-- Packing the octet at `CNT`, of either class, keeps magnitude and `OVF` those of the octets consumed. -/
theorem packGroup_consumed {u : State} {b : Byte} (h : decodeRunning u) (hw : inputWellFormed u.ibuf = true)
    (hb : u.ibuf[u.cnt.toNat]? = some b) :
    (packGroup (b.setWidth 7) u).mag = BitVec.ofNat 64 (rawMagnitude (u.ibuf.take (u.cnt + 1).toNat)) ∧
      (packGroup (b.setWidth 7) u).ovf = decide (2 ^ 64 ≤ rawMagnitude (u.ibuf.take (u.cnt + 1).toNat)) := by
  obtain ⟨-, hle, -, hmag, hovf⟩ := h
  obtain ⟨-, htake⟩ := consumed_succ hw hb
  have hlen : u.cnt.toNat = (consumedOctets u).length := (List.length_take_of_le hle).symm
  rw [htake, packGroup_mag, packGroup_ovf, hmag, hovf, hlen, packAcc_rawMagnitude]
  refine ⟨rfl, ?_⟩
  rw [Bool.eq_iff_iff, Bool.or_eq_true, decide_eq_true_iff, decide_eq_true_iff, rawMagnitude_concat_ge_iff]

theorem decodeRunning_cont {u : State} {b : Byte} (h : decodeRunning u) (hw : inputWellFormed u.ibuf = true)
    (hb : u.ibuf[u.cnt.toNat]? = some b) (hf : b.getLsbD 7 = true) : decodeRunning (packGroup (b.setWidth 7) u) := by
  obtain ⟨hmag, hovf⟩ := packGroup_consumed h hw hb
  obtain ⟨hcnt, htake⟩ := consumed_succ hw hb
  obtain ⟨herr, -, hcont, -, -⟩ := h
  refine ⟨herr, ?_, ?_, hmag, hovf⟩
  · rw [packGroup_cnt, hcnt]
    exact (List.getElem?_eq_some_iff.mp hb).1
  · rw [consumedOctets, packGroup_cnt, packGroup_ibuf, htake]
    simpa [or_imp, forall_and, hf] using hcont

theorem decodeDone_last {u : State} {b : Byte} (hw : inputWellFormed u.ibuf = true)
    (hb : u.ibuf[u.cnt.toNat]? = some b) : decodeDone (finishDecode (packGroup (b.setWidth 7) u)) := by
  intro _
  obtain ⟨hcnt, -⟩ := consumed_succ hw hb
  exact ⟨hcnt ▸ Nat.le_add_left .., rfl⟩

/-- An engine step keeps the invariant. -/
theorem inv_of_engineEffect {u t : State} (hi : Inv u) (hp : u.phase = .run) (h : engineEffect u t) : Inv t := by
  have henc := hi.encodeRunning hp
  have hdec := hi.decodeRunning hp
  obtain ⟨hm, hw, -⟩ := hi
  rcases h with ⟨hd, -, rfl⟩ | ⟨hd, -, b, hb, ⟨hf, rfl⟩ | ⟨-, rfl⟩⟩ | ⟨hd, hidx, ⟨hgt, rfl⟩ | ⟨hle, rfl⟩⟩
  · exact inv_of_decodeDone hm hw rfl hd nofun
  · exact inv_of_decodeRunning hm hw hp hd (decodeRunning_cont (hdec hd) hw hb hf)
  · exact inv_of_decodeDone hm hw rfl hd (decodeDone_last hw hb)
  · exact inv_of_encodeRunning (wf_obufStore _ hm hidx) hw hp hd (encodeRunning_cont (henc hd) hgt)
  · exact inv_of_encodeDone (wf_obufStore _ hm hidx) hw rfl hd (encodeDone_last (henc hd) (Nat.not_lt.mpr hle))

/-! ### Every step -/

/-- With the same block, two states differ in the host's side alone. -/
theorem eq_of_sameBlock {s t : State} (h : sameBlock s t) :
    ∃ v i m g d, t = { s with value := v, ibuf := i, moves := m, got := g, draws := d } := by
  obtain ⟨hop, hval, hmag, hcnt, hphase, herr, hovf, hobuf⟩ := h
  refine ⟨t.value, t.ibuf, t.moves, t.got, t.draws, ?_⟩
  rw [← hop, ← hval, ← hmag, ← hcnt, ← hphase, ← herr, ← hovf, ← hobuf]

/-- The invariant is about the block, and about the input while an operation runs. -/
theorem inv_of_sameBlock {s t : State} (hi : Inv s) (h : sameBlock s t) (hrun : s.phase = .run → t.ibuf = s.ibuf)
    (hw : t.ibuf = s.ibuf ∨ inputWellFormed t.ibuf = true) : Inv t := by
  obtain ⟨v, i, m, g, d, rfl⟩ := eq_of_sameBlock h
  obtain ⟨hm, hws, hs⟩ := hi
  refine ⟨hm, hw.elim (fun h => h ▸ hws) id, ?_⟩
  cases hp : s.phase with
  | idle =>
    rw [hp] at hs
    exact hs
  | run =>
    obtain rfl : i = s.ibuf := hrun hp
    rw [hp] at hs
    exact hs
  | done =>
    rw [hp] at hs
    exact hs

/-- Letting the engine move keeps the invariant. -/
theorem inv_of_engineToMove {s u : State} (hi : Inv s) (h : engineToMove s u) : Inv u := by
  obtain ⟨rest, rfl⟩ := engineToMove_frame h
  exact hi

/-- Settles O55: a start, an engine step, a move of the host alone, or a reset. -/
theorem stepKeepsTheInvariant : Obligations.StepKeepsTheInvariant := by
  intro s t hi h
  rcases step_cases h with ⟨code, rest, -, -, rfl⟩ | ⟨u, hu, hp, he⟩ | ⟨hsame, -, -, hrun, hw, -⟩ | ⟨rest, -, rfl⟩
  · have hrest : Inv { s with moves := rest } := hi
    exact inv_started hrest code
  · exact inv_of_engineEffect (inv_of_engineToMove hi hu) ((engineToMove_phase hu).trans hp) he
  · exact inv_of_sameBlock hi hsame (fun hp => (hrun hp).1) hw
  · obtain ⟨-, hw, -⟩ := hi
    exact ⟨wf_reset, hw, rfl, rfl⟩

/-! ### The response of a finished encode -/

/-- With as many octets as the encoding has, `OBUF` holds the encoding. -/
theorem obufOctets_of_encodeDone {s : State} (h : encodeDone s) :
    obufOctets s.obuf s.cnt.toNat = genc (encodeMagnitude s) := by
  obtain ⟨-, -, hcnt, hout⟩ := h
  refine List.ext_getElem? fun i => ?_
  rw [obufOctets, List.getElem?_map]
  rcases Nat.lt_or_ge i s.cnt.toNat with hi | hi
  · rw [List.getElem?_range hi, hout i hi, Option.map_some]
  · rw [List.getElem?_eq_none (by rw [List.length_range]; exact hi), List.getElem?_eq_none (hcnt ▸ hi), Option.map_none]

theorem response_of_encodeDone {s : State} (hp : s.phase = .done) (hd : isDecode s.op = false) (h : encodeDone s) :
    response s = some (.octets (genc (encodeMagnitude s))) := by
  rw [← obufOctets_of_encodeDone h]
  simp only [response, hp, hd, Bool.false_eq_true, if_false]

theorem genc_operandMagnitude (code : Code) (v : Word) :
    genc (operandMagnitude code v) = if isSigned code then encodeSigned v else encodeUnsigned v := by
  rw [operandMagnitude]
  split <;> rfl

/-- Settles O56. -/
theorem finishedEncodeIsRight : Obligations.FinishedEncodeIsRight := by
  intro s hi hp hd
  rw [response_of_encodeDone hp hd (hi.encodeDone hp hd), encodeMagnitude, genc_operandMagnitude]

end Sys2Proof.Machine

/-! PROOFS. Whole operations (40_group_codec.md R118; 43_sequencing_and_host.md section 3): an encode and a decode from
their start to their end, and what their result depends on. -/

namespace Sys2Proof.Machine

/-! ### Runs along a predicate -/

/-- A run follows a family of predicates each of which one step turns into the next. -/
theorem run_follows {P : Nat → State → Prop} {n : Nat} {s : State} (h0 : P 0 s)
    (hstep : ∀ j u, j < n → P j u → ∃ v, step u = .next v ∧ P (j + 1) v) {j : Nat} (hj : j ≤ n) :
    ∃ u : State, Host.Core.run Sys2Proof.core j s = .next u ∧ P j u := by
  induction j with
  | zero => exact ⟨s, rfl, h0⟩
  | succ j ih =>
    obtain ⟨u, hu, hP⟩ := ih (by omega)
    obtain ⟨v, hv, hP'⟩ := hstep j u hj hP
    exact ⟨v, by rw [run_add_of_run hu, run_succ_of_step hv, run_zero], hP'⟩

theorem engineToMove_of_no_moves {s : State} (h : s.moves = []) : engineToMove s s := .inl ⟨h, rfl⟩

/-- The first step of a planned start, with no operation running. -/
theorem run_start {s : State} {code : Code} (hp : s.phase ≠ .run) (hm : s.moves = [.start code]) (n : Nat) :
    Host.Core.run Sys2Proof.core (n + 1) s = Host.Core.run Sys2Proof.core n (started code { s with moves := [] }) :=
  run_succ_of_step (step_start_of_ready hp hm) n

/-! ### A whole encode -/

/-- An encode started in `s` has emitted `j` octets and owes another; nothing at or past `OBUF[j]` has been written. -/
structure Encoding (s : State) (code : Code) (j : Nat) (u : State) : Prop where
  running : encodeRunning u
  phase : u.phase = .run
  moves : u.moves = []
  op : u.op = code
  val : u.val = s.value
  ibuf : u.ibuf = s.ibuf
  cnt : u.cnt.toNat = j
  obuf : ∀ i, j ≤ i → obufRead u.obuf i = obufRead s.obuf i

section
variable {s u : State} {code : Code} {j : Nat}

theorem Encoding.start (hd : isDecode code = false) : Encoding s code 0 (started code { s with moves := [] }) := by
  rw [started_of_encode hd]
  exact ⟨encodeRunning_startEncode _ _, rfl, rfl, rfl, rfl, rfl, rfl, fun _ _ => rfl⟩

theorem Encoding.magnitude (h : Encoding s code j u) : encodeMagnitude u = operandMagnitude code s.value := by
  rw [encodeMagnitude, h.op, h.val]

/-- While the encoding has octets left after this one, the step emits it and goes on. -/
theorem Encoding.step_cont (hd : isDecode code = false) (h : Encoding s code j u)
    (hj : j + 1 < (genc (operandMagnitude code s.value)).length) :
    ∃ v, step u = .next v ∧ Encoding s code (j + 1) v := by
  have hdu : isDecode u.op = false := h.op ▸ hd
  have hcnt := encodeRunning_cnt_le h.running
  have hm : 127 < u.mag.toNat := by
    rw [(encodeRunning_due h.running).2, h.magnitude, h.cnt]
    exact hj
  refine ⟨_, (step_encode (engineToMove_of_no_moves h.moves) h.phase hdu hcnt).1 hm,
    encodeRunning_cont h.running hm, h.phase, h.moves, h.op, h.val, h.ibuf, ?_, fun i hi => ?_⟩
  · rw [← h.cnt]
    exact cnt_succ_toNat (by omega)
  · exact (obufRead_store_other _ _ (by rw [h.cnt]; omega)).trans (h.obuf i (by omega))

/-- The step that emits the last octet ends the encode. -/
theorem Encoding.step_last (hd : isDecode code = false) (h : Encoding s code j u)
    (hj : j + 1 = (genc (operandMagnitude code s.value)).length) :
    ∃ t, step u = .next t ∧ t.phase = .done ∧ response t = some (.octets (genc (operandMagnitude code s.value))) ∧
      t.cnt.toNat = (genc (operandMagnitude code s.value)).length ∧ t.err = false ∧ t.ovf = false ∧
      t.val = s.value ∧ t.ibuf = s.ibuf ∧
      ∀ i, (genc (operandMagnitude code s.value)).length ≤ i → obufRead t.obuf i = obufRead s.obuf i := by
  have hdu : isDecode u.op = false := h.op ▸ hd
  have hcnt := encodeRunning_cnt_le h.running
  have hm : ¬ 127 < u.mag.toNat := by
    rw [(encodeRunning_due h.running).2, h.magnitude, h.cnt]
    omega
  have hdone := encodeDone_last h.running hm
  have hresponse := response_of_encodeDone (s := finishEncode (wroteOctet _ u)) rfl hdu hdone
  obtain ⟨herr, hovf, hlen, -⟩ := hdone
  rw [← h.magnitude] at hj ⊢
  refine ⟨_, (step_encode (engineToMove_of_no_moves h.moves) h.phase hdu hcnt).2 hm, rfl, hresponse, hlen, herr, hovf,
    h.val, h.ibuf, fun i hi => ?_⟩
  exact (obufRead_store_other _ _ (by rw [h.cnt]; omega)).trans (h.obuf i (by omega))

end

/-- An encode from its start: as many steps in `RUN` as it has octets, and then the result (R118 (a)). -/
theorem encode_runs {s : State} {code : Code} (hd : isDecode code = false) (hp : s.phase ≠ .run)
    (hm : s.moves = [.start code]) {e : List Byte} (he : genc (operandMagnitude code s.value) = e) :
    ∃ t : State, Host.Core.run Sys2Proof.core (1 + e.length) s = .next t ∧ t.phase = .done ∧
      response t = some (.octets e) ∧ t.cnt.toNat = e.length ∧ t.err = false ∧ t.ovf = false ∧ t.val = s.value ∧
      t.ibuf = s.ibuf ∧ (∀ i, e.length ≤ i → obufRead t.obuf i = obufRead s.obuf i) ∧
      ∀ n, 1 ≤ n → n ≤ e.length → ∃ u : State, Host.Core.run Sys2Proof.core n s = .next u ∧ u.phase = .run := by
  subst he
  obtain ⟨n, hn⟩ := Nat.exists_eq_add_of_le' (genc_length_pos (operandMagnitude code s.value))
  have hruns {j : Nat} (hj : j ≤ n) := run_follows (P := Encoding s code) (n := n) (.start hd)
    (fun i u hi h => h.step_cont hd (by omega)) hj
  obtain ⟨u, hu, hlast⟩ := hruns le_rfl
  obtain ⟨t, ht, hphase, hresponse, hcnt, herr, hovf, hval, hibuf, hobuf⟩ := hlast.step_last hd hn.symm
  refine ⟨t, ?_, hphase, hresponse, hcnt, herr, hovf, hval, hibuf, hobuf, fun i hi hle => ?_⟩
  · rw [hn, Nat.add_comm, run_start hp hm, run_add_of_run hu, run_succ_of_step ht, run_zero]
  · obtain ⟨j, rfl⟩ := Nat.exists_eq_add_of_le' hi
    obtain ⟨v, hv, hrunning⟩ := hruns (j := j) (by omega)
    exact ⟨v, (run_start hp hm j).trans hv, hrunning.phase⟩

/-- Settles O49: `encode_runs` for either code. -/
theorem encodeComputesItsFunction : Obligations.EncodeComputesItsFunction := by
  intro s signed hp hm
  cases signed
  · exact encode_runs (code := 0b00) rfl hp hm rfl
  · exact encode_runs (code := 0b10) rfl hp hm rfl

/-! ### A whole decode -/

/-- A decode started in `s` has consumed `j` octets of its input and found no terminator among them. -/
structure Decoding (s : State) (code : Code) (j : Nat) (u : State) : Prop where
  running : decodeRunning u
  phase : u.phase = .run
  moves : u.moves = []
  op : u.op = code
  ibuf : u.ibuf = s.ibuf
  obuf : u.obuf = s.obuf
  cnt : u.cnt.toNat = j

section
variable {s u : State} {code : Code} {j : Nat} {b : Byte}

theorem Decoding.start (hd : isDecode code = true) : Decoding s code 0 (started code { s with moves := [] }) := by
  rw [started_of_decode hd]
  exact ⟨decodeRunning_startDecode _ _, rfl, rfl, rfl, rfl, rfl, rfl⟩

theorem Decoding.octet (h : Decoding s code j u) (hb : s.ibuf[j]? = some b) : u.ibuf[u.cnt.toNat]? = some b := by
  rw [h.ibuf, h.cnt, hb]

theorem Decoding.cnt_ne_ilen (h : Decoding s code j u) (hw : inputWellFormed s.ibuf = true)
    (hb : s.ibuf[j]? = some b) : u.cnt ≠ ilen u := by
  obtain ⟨hlt, -⟩ := List.getElem?_eq_some_iff.mp hb
  rw [ne_eq, cnt_eq_ilen_iff (h.ibuf.symm ▸ hw), h.cnt, h.ibuf]
  omega

/-- A continuation octet is packed, and the decode goes on. -/
theorem Decoding.step_cont (hd : isDecode code = true) (h : Decoding s code j u) (hw : inputWellFormed s.ibuf = true)
    (hb : s.ibuf[j]? = some b) (hf : b.getLsbD 7 = true) :
    step u = .next (packGroup (b.setWidth 7) u) ∧ Decoding s code (j + 1) (packGroup (b.setWidth 7) u) := by
  have hwu : inputWellFormed u.ibuf = true := h.ibuf.symm ▸ hw
  obtain ⟨hcnt, -⟩ := consumed_succ hwu (h.octet hb)
  refine ⟨(step_decode_octet (engineToMove_of_no_moves h.moves) h.phase (h.op ▸ hd) (h.cnt_ne_ilen hw hb)
    (h.octet hb)).1 hf, decodeRunning_cont h.running hwu (h.octet hb) hf, h.phase, h.moves, h.op, h.ibuf, h.obuf, ?_⟩
  rw [packGroup_cnt, hcnt, h.cnt]

/-- A terminating octet is packed and ends the decode. -/
theorem Decoding.step_last (hd : isDecode code = true) (h : Decoding s code j u) (hw : inputWellFormed s.ibuf = true)
    (hb : s.ibuf[j]? = some b) (hf : b.getLsbD 7 = false) :
    step u = .next (finishDecode (packGroup (b.setWidth 7) u)) :=
  (step_decode_octet (engineToMove_of_no_moves h.moves) h.phase (h.op ▸ hd) (h.cnt_ne_ilen hw hb) (h.octet hb)).2 hf

/-- An input that runs out ends the decode in error. -/
theorem Decoding.step_exhausted (hd : isDecode code = true) (h : Decoding s code s.ibuf.length u)
    (hw : inputWellFormed s.ibuf = true) : step u = .next (raiseParseError u) :=
  step_decode_exhausted (engineToMove_of_no_moves h.moves) h.phase (h.op ▸ hd)
    ((cnt_eq_ilen_iff (h.ibuf.symm ▸ hw)).mpr (by rw [h.cnt, h.ibuf]))

/-- A decode goes through the continuation octets at the head of its input. -/
theorem decoding_of_cont {n : Nat} (hd : isDecode code = true) (hw : inputWellFormed s.ibuf = true)
    (hn : n ≤ s.ibuf.length) (hcont : ∀ b ∈ s.ibuf.take n, b.getLsbD 7 = true) (hj : j ≤ n) :
    ∃ u : State, Host.Core.run Sys2Proof.core j (started code { s with moves := [] }) = .next u ∧
      Decoding s code j u := by
  refine run_follows (n := n) (.start hd) (fun i u hi h => ?_) hj
  have hlt : i < s.ibuf.length := hi.trans_le hn
  have hmem : s.ibuf[i] ∈ s.ibuf.take n := List.mem_take_iff_getElem.mpr ⟨i, by omega, rfl⟩
  exact ⟨_, h.step_cont hd hw (List.getElem?_eq_getElem hlt) (hcont _ hmem)⟩

end

/-- The octets before the terminator continue, and the terminator does not. -/
theorem flags_of_terminatorIndex_eq {w : List Byte} {k : Nat} (h : terminatorIndex w = some k) :
    (∀ b ∈ w.take k, b.getLsbD 7 = true) ∧ ∃ b, w[k]? = some b ∧ b.getLsbD 7 = false := by
  obtain ⟨p, b, t, rfl, rfl, hb, hp⟩ := terminatorIndex_eq_some.mp h
  rw [List.take_left]
  exact ⟨hp, b, by rw [List.getElem?_append_right le_rfl, Nat.sub_self, List.getElem?_cons_zero], hb⟩

theorem operationResult_of_encode {code : Code} (hd : isDecode code = false) (v : Word) (w : List Byte) :
    operationResult code v w = .octets (genc (operandMagnitude code v)) := by
  rw [operationResult, operandMagnitude, hd]
  cases isSigned code <;> rfl

theorem operationResult_of_decode {code : Code} (hd : isDecode code = true) (v : Word) (w : List Byte) :
    operationResult code v w = if isSigned code then decodeSigned w else decodeUnsigned w := by
  rw [operationResult, hd]
  cases isSigned code <;> rfl

theorem response_raiseParseError {u : State} (hd : isDecode u.op = true) :
    response (raiseParseError u) = some (.err .malformedOrTruncated) := by
  simp only [response, raiseParseError_phase, raiseParseError_op, hd, raiseParseError_err, if_true]

/-- The response of a decode that ends is what the function level makes of magnitude, count and `OVF`. -/
theorem response_finishDecode {u : State} {w : List Byte} (hd : isDecode u.op = true) (he : u.err = false)
    (hg : gdec w = .ok { mag := u.mag, consumed := u.cnt.toNat, ovf := u.ovf }) :
    response (finishDecode u) = some (if isSigned u.op then decodeSigned w else decodeUnsigned w) := by
  simp only [response, finishDecode_phase, finishDecode_op, hd, if_true, finishDecode_err, he, finishDecode_val,
    finishDecode_cnt, finishDecode_ovf, decodedValue, decodeSigned_of_ok hg, decodeUnsigned_of_ok hg,
    Bool.false_eq_true, if_false]
  split <;> rfl

section
variable {s : State} {code : Code} (hd : isDecode code = true) (hp : s.phase ≠ .run) (hm : s.moves = [.start code])
  (hw : inputWellFormed s.ibuf = true)
include hd hp hm hw

/-- Up to the last step a decode is in `RUN`. -/
theorem decode_in_run {n : Nat} (hn : n ≤ s.ibuf.length) (hcont : ∀ b ∈ s.ibuf.take n, b.getLsbD 7 = true) {i : Nat}
    (hi : 1 ≤ i) (hle : i ≤ n + 1) : ∃ u : State, Host.Core.run Sys2Proof.core i s = .next u ∧ u.phase = .run := by
  obtain ⟨j, rfl⟩ := Nat.exists_eq_add_of_le' hi
  obtain ⟨u, hu, h⟩ := decoding_of_cont (j := j) hd hw hn hcont (by omega)
  exact ⟨u, (run_start hp hm j).trans hu, h.phase⟩

/-- A decode of an input without a terminator ends in error behind the last octet (R118 (b)). -/
theorem decode_runs_error {e : ParseError} (hg : gdec s.ibuf = .error e) :
    ∃ t : State, Host.Core.run Sys2Proof.core (1 + (s.ibuf.length + 1)) s = .next t ∧ t.phase = .done ∧
      response t = some (if isSigned code then decodeSigned s.ibuf else decodeUnsigned s.ibuf) ∧ t.obuf = s.obuf ∧
      t.ibuf = s.ibuf ∧
      ∀ n, 1 ≤ n → n ≤ s.ibuf.length + 1 →
        ∃ u : State, Host.Core.run Sys2Proof.core n s = .next u ∧ u.phase = .run := by
  cases e
  have hcont : ∀ b ∈ s.ibuf.take s.ibuf.length, b.getLsbD 7 = true := by
    rw [List.take_length]
    exact terminatorIndex_eq_none.mp (gdec_error_iff.mp hg)
  obtain ⟨u, hu, h⟩ := decoding_of_cont hd hw le_rfl hcont le_rfl
  refine ⟨raiseParseError u, ?_, rfl, ?_, h.obuf, h.ibuf, fun n => decode_in_run hd hp hm hw le_rfl hcont⟩
  · rw [Nat.add_comm, run_start hp hm, run_add_of_run hu, run_succ_of_step (h.step_exhausted hd hw), run_zero]
  · rw [response_raiseParseError (h.op ▸ hd), decodeSigned_of_error hg, decodeUnsigned_of_error hg, ite_self]

/-- A decode that succeeds ends with the terminator (R118 (b)). -/
theorem decode_runs_ok {d : Decoded} (hg : gdec s.ibuf = .ok d) :
    ∃ t : State, Host.Core.run Sys2Proof.core (1 + d.consumed) s = .next t ∧ t.phase = .done ∧
      response t = some (if isSigned code then decodeSigned s.ibuf else decodeUnsigned s.ibuf) ∧ t.obuf = s.obuf ∧
      t.ibuf = s.ibuf ∧ t.mag = d.mag ∧ t.err = false ∧
      ∀ n, 1 ≤ n → n ≤ d.consumed → ∃ u : State, Host.Core.run Sys2Proof.core n s = .next u ∧ u.phase = .run := by
  obtain ⟨hterm, hpos, hlen, hmag, hovf⟩ := gdec_ok hg
  obtain ⟨k, hk⟩ := Nat.exists_eq_add_of_le' hpos
  rw [hk, Nat.add_sub_cancel] at hterm
  obtain ⟨hcont, b, hb, hf⟩ := flags_of_terminatorIndex_eq hterm
  have hn : k ≤ s.ibuf.length := by omega
  obtain ⟨u, hu, h⟩ := decoding_of_cont hd hw hn hcont le_rfl
  have hwu : inputWellFormed u.ibuf = true := h.ibuf.symm ▸ hw
  obtain ⟨hcnt, -⟩ := consumed_succ hwu (h.octet hb)
  obtain ⟨hm', ho'⟩ := packGroup_consumed h.running hwu (h.octet hb)
  rw [hcnt, h.cnt, h.ibuf, ← hk, ← hmag] at hm'
  rw [hcnt, h.cnt, h.ibuf, ← hk, ← hovf] at ho'
  obtain ⟨herr, -⟩ := h.running
  have hresponse := response_finishDecode (u := packGroup (b.setWidth 7) u) (w := s.ibuf) (h.op ▸ hd) herr (by
    rw [hm', ho', packGroup_cnt, hcnt, h.cnt, ← hk, hg])
  rw [packGroup_op, h.op] at hresponse
  refine ⟨finishDecode (packGroup (b.setWidth 7) u), ?_, rfl, hresponse, h.obuf, h.ibuf, hm', herr, fun n hi hle => ?_⟩
  · rw [hk, Nat.add_comm, run_start hp hm, run_add_of_run hu, run_succ_of_step (h.step_last hd hw hb hf), run_zero]
  · exact decode_in_run hd hp hm hw hn hcont hi (hk ▸ hle)

end

/-- Settles O50: by what `GDEC` answers, for either code. -/
theorem decodeComputesItsFunction : Obligations.DecodeComputesItsFunction := by
  intro s signed hp hm hlen steps
  have hw := inputWellFormed_iff.mpr hlen
  have hd : isDecode (if signed then 0b11 else 0b01) = true := by cases signed <;> rfl
  have hs : isSigned (if signed then 0b11 else 0b01) = signed := by cases signed <;> rfl
  cases hg : gdec s.ibuf with
  | error e =>
    have hsteps : steps = s.ibuf.length + 1 := by simp only [steps, hg]
    obtain ⟨t, hrun, hphase, hresponse, hobuf, hibuf, hruns⟩ := decode_runs_error hd hp hm hw hg
    rw [hs] at hresponse
    rw [hsteps]
    exact ⟨t, hrun, hphase, hresponse, hobuf, hibuf, nofun, hruns⟩
  | ok d =>
    have hsteps : steps = d.consumed := by simp only [steps, hg]
    obtain ⟨t, hrun, hphase, hresponse, hobuf, hibuf, hmag, herr, hruns⟩ := decode_runs_ok hd hp hm hw hg
    rw [hs] at hresponse
    rw [hsteps]
    refine ⟨t, hrun, hphase, hresponse, hobuf, hibuf, ?_, hruns⟩
    rintro _ ⟨⟩
    exact ⟨hmag, herr⟩

/-! ### What a result depends on -/

/-- The operands fix the number of steps and the response, whatever the block held before the start. -/
theorem operation_computes (code : Code) (value : Word) {input : List Byte} (hlen : input.length ≤ 2 ^ 64 - 1) :
    ∃ n, ∀ s : State, s.phase ≠ .run → s.moves = [.start code] → s.value = value → s.ibuf = input →
      ∃ t : State, Host.Core.run Sys2Proof.core n s = .next t ∧ t.phase = .done ∧
        response t = some (operationResult code value input) := by
  have hw := inputWellFormed_iff.mpr hlen
  cases hd : isDecode code
  · refine ⟨1 + (genc (operandMagnitude code value)).length, fun s hp hm hv _ => ?_⟩
    obtain ⟨t, hrun, hphase, hresponse, -⟩ := encode_runs hd hp hm (congrArg (genc <| operandMagnitude code ·) hv)
    exact ⟨t, hrun, hphase, hresponse.trans (congrArg some (operationResult_of_encode hd value input).symm)⟩
  · rw [operationResult_of_decode hd]
    cases hg : gdec input with
    | error e =>
      refine ⟨1 + (input.length + 1), fun s hp hm _ hi => ?_⟩
      subst hi
      obtain ⟨t, hrun, hphase, hresponse, -⟩ := decode_runs_error hd hp hm hw hg
      exact ⟨t, hrun, hphase, hresponse⟩
    | ok d =>
      refine ⟨1 + d.consumed, fun s hp hm _ hi => ?_⟩
      subst hi
      obtain ⟨t, hrun, hphase, hresponse, -⟩ := decode_runs_ok hd hp hm hw hg
      exact ⟨t, hrun, hphase, hresponse⟩

/-- Settles O51: both runs compute the operation's result on the same operands. -/
theorem independenceFromEarlierState : Obligations.IndependenceFromEarlierState := by
  intro a b code ha hb hma hmb hvalue hibuf hlen
  obtain ⟨n, hn⟩ := operation_computes code a.value hlen
  obtain ⟨t, hrunt, hdonet, ht⟩ := hn a ha hma rfl rfl
  obtain ⟨u, hrunu, hdoneu, hu⟩ := hn b hb hmb hvalue.symm hibuf.symm
  exact ⟨n, t, u, hrunt, hrunu, hdonet, hdoneu, by rw [ht]; rfl, ht.trans hu.symm⟩

/-! ### A decode with another tail in its input -/

/-- The same decode over another input that agrees on the octets consumed. -/
theorem Decoding.swap_input {s u : State} {code : Code} {j : Nat} {other : List Byte} (h : Decoding s code j u)
    (hlen : j ≤ other.length) (hagree : other.take j = s.ibuf.take j) :
    Decoding { s with ibuf := other } code j { u with ibuf := other } := by
  have hconsumed : consumedOctets { u with ibuf := other } = consumedOctets u := by
    rw [consumedOctets, consumedOctets, h.ibuf, h.cnt, ← hagree]
  obtain ⟨herr, -, hcont, hmag, hovf⟩ := h.running
  refine ⟨⟨herr, h.cnt.le.trans hlen, ?_, ?_, ?_⟩, h.phase, h.moves, h.op, rfl, h.obuf, h.cnt⟩
  · rwa [hconsumed]
  · rwa [hconsumed]
  · rwa [hconsumed]

/-- A decode that ended stays as it is. -/
theorem run_finishDecode {u : State} (hm : u.moves = []) (n : Nat) :
    Host.Core.run Sys2Proof.core n (finishDecode u) = .next (finishDecode u) :=
  run_of_ready (s := finishDecode u) hm (by rw [finishDecode_phase]; nofun) n

/-- From inside a decode, both inputs being the same up to the terminator, each run goes through the same states but for
the input. -/
theorem run_swap_input {s : State} {code : Code} {other : List Byte} {k : Nat} (hd : isDecode code = true)
    (hw : inputWellFormed s.ibuf = true) (hwo : inputWellFormed other = true) (hk : terminatorIndex s.ibuf = some k)
    (hagree : other.take (k + 1) = s.ibuf.take (k + 1)) (n : Nat) {j : Nat} {u : State} (hj : j ≤ k)
    (h : Decoding s code j u) :
    ∃ t : State, Host.Core.run Sys2Proof.core n u = .next t ∧
      Host.Core.run Sys2Proof.core n { u with ibuf := other } = .next { t with ibuf := other } := by
  have hlen := terminatorIndex_lt_length hk
  have hleno : k < other.length := by
    have := congrArg List.length hagree
    rw [List.length_take, List.length_take] at this
    omega
  have hget {i : Nat} (hi : i ≤ k) : other[i]? = s.ibuf[i]? := by
    rw [← List.getElem?_take_of_lt (Nat.lt_succ_of_le hi), hagree, List.getElem?_take_of_lt (Nat.lt_succ_of_le hi)]
  obtain ⟨hcont, b, hb, hlast⟩ := flags_of_terminatorIndex_eq hk
  induction n generalizing j u with
  | zero => exact ⟨u, rfl, rfl⟩
  | succ n ih =>
    have hagreej : other.take j = s.ibuf.take j := by
      have := congrArg (List.take j) hagree
      rwa [List.take_take, List.take_take, Nat.min_eq_left (by omega)] at this
    have ho := h.swap_input (by omega) hagreej
    rcases Nat.eq_or_lt_of_le hj with rfl | hlt
    · have hstep := h.step_last hd hw hb hlast
      have hstepo := ho.step_last hd hwo ((hget le_rfl).trans hb) hlast
      exact ⟨_, (run_succ_of_step hstep n).trans (run_finishDecode (u := packGroup _ u) h.moves n),
        (run_succ_of_step hstepo n).trans (run_finishDecode (u := packGroup _ { u with ibuf := other }) h.moves n)⟩
    · have hc : s.ibuf[j]? = some s.ibuf[j] := List.getElem?_eq_getElem _
      have hf := hcont s.ibuf[j] (List.mem_take_iff_getElem.mpr ⟨j, by omega, rfl⟩)
      obtain ⟨hstep, hnext⟩ := h.step_cont hd hw hc hf
      obtain ⟨hstepo, -⟩ := ho.step_cont hd hwo ((hget hj).trans hc) hf
      obtain ⟨t, hrun, hruno⟩ := ih hlt hnext
      exact ⟨t, (run_succ_of_step hstep n).trans hrun, (run_succ_of_step hstepo n).trans hruno⟩

/-- Settles O52: the start, and then `run_swap_input` from the first octet on. -/
theorem decodeNeverLooksPastItsValue : Obligations.DecodeNeverLooksPastItsValue := by
  intro s other d code hd hp hm hg hagree hlen hleno n
  obtain ⟨hterm, hpos, -⟩ := gdec_ok hg
  rw [← Nat.sub_add_cancel hpos] at hagree
  cases n with
  | zero => exact ⟨s, rfl, rfl⟩
  | succ n =>
    obtain ⟨t, hrun, hruno⟩ := run_swap_input hd (inputWellFormed_iff.mpr hlen) (inputWellFormed_iff.mpr hleno) hterm
      hagree n (Nat.zero_le _) (.start hd)
    refine ⟨t, (run_start hp hm n).trans hrun, ?_⟩
    rw [run_start (s := { s with ibuf := other }) hp hm, started_of_decode hd]
    rw [started_of_decode hd] at hruno
    exact hruno

/-! ### Every operation ends -/

/-- The steps an operation has left at most: an encode has 10 octets in all, and a decode its input and the error. -/
def stepsLeft (s : State) : Nat := (if isDecode s.op then s.ibuf.length + 1 else 10) - s.cnt.toNat

theorem stepsLeft_of_encode {s : State} (hd : isDecode s.op = false) : stepsLeft s = 10 - s.cnt.toNat := by
  rw [stepsLeft, hd, if_neg Bool.false_ne_true]

theorem stepsLeft_of_decode {s : State} (hd : isDecode s.op = true) :
    stepsLeft s = s.ibuf.length + 1 - s.cnt.toNat := by
  rw [stepsLeft, if_pos hd]

/-- A running operation has a step left. -/
theorem stepsLeft_pos {s : State} (hi : Inv s) (hp : s.phase = .run) : 0 < stepsLeft s := by
  cases hd : isDecode s.op
  · have := encodeRunning_cnt_le (hi.encodeRunning hp hd)
    rw [stepsLeft_of_encode hd]
    omega
  · obtain ⟨-, hle, -⟩ := hi.decodeRunning hp hd
    rw [stepsLeft_of_decode hd]
    omega

/-- An engine step ends the operation or leaves it fewer steps. -/
theorem engineEffect_stepsLeft {u t : State} (hi : Inv u) (hp : u.phase = .run) (h : engineEffect u t) :
    t.phase = .done ∨ (t.phase = .run ∧ stepsLeft t < stepsLeft u) := by
  have hpos := stepsLeft_pos hi hp
  obtain ⟨-, hw, -⟩ := hi
  rcases h with ⟨hd, -, rfl⟩ | ⟨hd, -, b, hb, ⟨-, rfl⟩ | ⟨-, rfl⟩⟩ | ⟨hd, hidx, ⟨-, rfl⟩ | ⟨-, rfl⟩⟩
  · exact .inl rfl
  · obtain ⟨hcnt, -⟩ := consumed_succ hw hb
    rw [stepsLeft_of_decode hd] at hpos ⊢
    refine .inr ⟨hp, ?_⟩
    rw [stepsLeft_of_decode (s := packGroup _ u) hd, packGroup_ibuf, packGroup_cnt, hcnt]
    omega
  · exact .inl rfl
  · have hcnt : (u.cnt + 1).toNat = u.cnt.toNat + 1 := cnt_succ_toNat (by omega)
    rw [stepsLeft_of_encode hd] at hpos ⊢
    refine .inr ⟨hp, ?_⟩
    rw [stepsLeft_of_encode (s := shiftMagnitude (wroteOctet _ u)) hd, shiftMagnitude_cnt, wroteOctet_cnt, hcnt]
    omega
  · exact .inl rfl

theorem response_isSome_of_done {s : State} (hp : s.phase = .done) : (response s).isSome = true := by
  simp only [response, hp]
  split
  · split
    · rfl
    · split <;> rfl
  · rfl

theorem ends_within_stepsLeft {s : State} (hi : Inv s) (hp : s.phase = .run) (hm : s.moves = []) :
    ∃ (n : Nat) (t : State), n ≤ stepsLeft s ∧ Host.Core.run Sys2Proof.core n s = .next t ∧ t.phase = .done := by
  induction hleft : stepsLeft s using Nat.strong_induction_on generalizing s with
  | _ left ih =>
    have hmove := engineToMove_of_no_moves hm
    obtain ⟨u, hu⟩ := hi.engine_next hmove hp
    have he := (step_engine_iff hmove hp).mp hu
    have hpos := stepsLeft_pos hi hp
    rcases engineEffect_stepsLeft hi hp he with hdone | ⟨hrun, hless⟩
    · exact ⟨1, u, by omega, by rw [run_succ_of_step hu, run_zero], hdone⟩
    · obtain ⟨-, -, -, hmoves, -⟩ := engineEffect_frame he
      obtain ⟨n, t, hn, hrunt, hdone⟩ :=
        ih _ (hleft ▸ hless) (inv_of_engineEffect hi hp he) hrun (hmoves.trans hm) rfl
      exact ⟨n + 1, t, by omega, (run_succ_of_step hu n).trans hrunt, hdone⟩

/-- Settles O53. -/
theorem everyOperationEnds : Obligations.EveryOperationEnds := by
  intro s hi hp hm
  obtain ⟨n, t, hn, hrun, hdone⟩ := ends_within_stepsLeft hi hp hm
  exact ⟨n, t, hn, hrun, hdone, response_isSome_of_done hdone⟩

end Sys2Proof.Machine

/-! PROOFS. A host that keeps its duties (43_sequencing_and_host.md R198) meets no fault and no refusal. -/

namespace Sys2Proof.Machine

/-- What keeps every step going, kept by every step, keeps the machine going. -/
theorem neverStops_of_invariant {P : State → Prop} (h : ∀ s, P s → ∃ t, step s = .next t ∧ P t) {s : State}
    (hs : P s) : neverStops s := by
  intro n
  induction n generalizing s with
  | zero => exact ⟨s, rfl⟩
  | succ n ih =>
    obtain ⟨t, ht, hP⟩ := h s hs
    rw [run_succ_of_step ht]
    exact ih hP

/-- The plan that is left keeps the host's duties, given whether an operation runs. -/
def dutiful (s : State) : Prop := keepsDuties (decide (s.phase = .run)) s.moves = true

theorem dutiful_iff_of_run {s : State} (hp : s.phase = .run) : dutiful s ↔ keepsDuties true s.moves = true := by
  rw [dutiful, decide_eq_true hp]

theorem dutiful_iff_of_ready {s : State} (hp : s.phase ≠ .run) : dutiful s ↔ keepsDuties false s.moves = true := by
  rw [dutiful, decide_eq_false hp]

/-- What a host may do while an operation runs it may do at any time. -/
theorem keepsDuties_mono {plan : List HostMove} (h : keepsDuties true plan = true) : keepsDuties false plan = true := by
  induction plan with
  | nil => rfl
  | cons m rest ih =>
    cases m with
    | setValue v => exact ih h
    | readStatus => exact ih h
    | tick => exact ih h
    | reset => exact h
    | waitDone => exact h
    | start code => cases h
    | setInput octets => cases h
    | readVal => cases h
    | readCnt => cases h
    | readObuf i => cases h

theorem dutiful_of_keepsDuties_true {s : State} (h : keepsDuties true s.moves = true) : dutiful s := by
  by_cases hp : s.phase = .run
  · exact (dutiful_iff_of_run hp).mpr h
  · exact (dutiful_iff_of_ready hp).mpr (keepsDuties_mono h)

/-! ### A dutiful host is answered -/

theorem hostReadWord_next_of_ready (w : Word → HostValue) (c : Word) {s : State} (hp : s.phase ≠ .run) :
    ∃ t, hostReadWord w c s = .next t := by
  cases h : resultSpecified s
  · exact ⟨_, hostReadWord_next_iff.mpr ⟨hp, .inr ⟨h, rfl⟩⟩⟩
  · exact ⟨_, hostReadWord_next_iff.mpr ⟨hp, .inl ⟨h, rfl⟩⟩⟩

theorem hostReadObuf_next_of_ready {i : Nat} {s : State} (hp : s.phase ≠ .run) (hi : i < 10) :
    ∃ t, hostReadObuf i s = .next t := by
  cases h : octetSpecified s i
  · exact ⟨_, hostReadObuf_next_iff.mpr ⟨hp, hi, .inr ⟨h, rfl⟩⟩⟩
  · exact ⟨_, hostReadObuf_next_iff.mpr ⟨hp, hi, .inl ⟨h, rfl⟩⟩⟩

/-- While an operation runs a dutiful host lets the engine move, or makes a move that is accepted in any phase. -/
theorem step_next_of_run {s : State} (hi : Inv s) (hp : s.phase = .run) (h : dutiful s) : ∃ t, step s = .next t := by
  rw [dutiful_iff_of_run hp] at h
  cases hm : s.moves with
  | nil => exact hi.engine_next (.inl ⟨hm, rfl⟩) hp
  | cons m rest =>
    rw [hm] at h
    cases m with
    | tick => exact hi.engine_next (.inr (.inl ⟨rest, hm, rfl⟩)) hp
    | waitDone => exact hi.engine_next (.inr (.inr ⟨rest, hm, rfl⟩)) hp
    | setValue v => exact ⟨_, step_setValue hm⟩
    | readStatus => exact ⟨_, step_readStatus hm⟩
    | reset => exact ⟨_, step_reset hm⟩
    | start code => cases h
    | setInput octets => cases h
    | readVal => cases h
    | readCnt => cases h
    | readObuf i => cases h

theorem step_tick_of_ready {s : State} {rest : List HostMove} (hp : s.phase ≠ .run) (hm : s.moves = .tick :: rest) :
    step s = .next { s with moves := rest } := by
  have hturn : engineTurn { s with moves := rest } = .inr (.next { s with moves := rest }) := engineTurn_of_ready hp
  simp only [step, nextTurn, hm, hturn]

theorem step_waitDone_of_ready {s : State} {rest : List HostMove} (hp : s.phase ≠ .run)
    (hm : s.moves = .waitDone :: rest) : step s = .next { s with moves := rest } := by
  cases h : s.phase with
  | run => exact absurd h hp
  | idle => simp only [step, nextTurn, hm, h]
  | done => simp only [step, nextTurn, hm, h]

/-- With no operation running every move of a dutiful host is accepted. -/
theorem step_next_of_ready {s : State} (hp : s.phase ≠ .run) (h : dutiful s) : ∃ t, step s = .next t := by
  rw [dutiful_iff_of_ready hp] at h
  cases hm : s.moves with
  | nil => exact ⟨s, by rw [step, nextTurn, hm, engineTurn_of_ready hp]⟩
  | cons m rest =>
    rw [hm] at h
    cases m with
    | tick => exact ⟨_, step_tick_of_ready hp hm⟩
    | waitDone => exact ⟨_, step_waitDone_of_ready hp hm⟩
    | setValue v => exact ⟨_, step_setValue hm⟩
    | readStatus => exact ⟨_, step_readStatus hm⟩
    | reset => exact ⟨_, step_reset hm⟩
    | start code => exact ⟨_, step_start_of_ready hp hm⟩
    | setInput octets =>
      simp only [keepsDuties, Bool.not_false, Bool.true_and, Bool.and_eq_true] at h
      obtain ⟨hw, -⟩ := h
      exact ⟨_, (step_setInput hm).trans (presentInput_next_iff.mpr ⟨hp, hw, rfl⟩)⟩
    | readVal => exact step_readVal hm ▸ hostReadWord_next_of_ready _ _ hp
    | readCnt => exact step_readCnt hm ▸ hostReadWord_next_of_ready _ _ hp
    | readObuf i =>
      simp only [keepsDuties, Bool.not_false, Bool.true_and, Bool.and_eq_true, decide_eq_true_eq] at h
      obtain ⟨hi, -⟩ := h
      exact step_readObuf hm ▸ hostReadObuf_next_of_ready hp hi

/-! ### A dutiful host stays dutiful -/

/-- Behind a move that neither starts nor resets nor waits for a running operation, the plan keeps the duties as
before. -/
theorem keepsDuties_of_cons {mayRun : Bool} {m : HostMove} {rest : List HostMove}
    (h : keepsDuties mayRun (m :: rest) = true) (hstart : ∀ code, m ≠ .start code) (hreset : m ≠ .reset)
    (hwait : mayRun = true → m ≠ .waitDone) : keepsDuties mayRun rest = true := by
  cases m with
  | setValue v => exact h
  | readStatus => exact h
  | tick => exact h
  | start code => exact absurd rfl (hstart code)
  | reset => exact absurd rfl hreset
  | waitDone =>
    cases mayRun
    · exact h
    · exact absurd rfl (hwait rfl)
  | setInput octets => exact (Bool.and_eq_true_iff.mp h).2
  | readVal => exact (Bool.and_eq_true_iff.mp h).2
  | readCnt => exact (Bool.and_eq_true_iff.mp h).2
  | readObuf i => exact (Bool.and_eq_true_iff.mp h).2

/-- Whatever the engine's step makes of the phase, what is left of the plan keeps the duties. -/
theorem dutiful_of_engineEffect {s u t : State} (hp : s.phase = .run) (h : dutiful s) (hu : engineToMove s u)
    (he : engineEffect u t) : dutiful t := by
  rw [dutiful_iff_of_run hp] at h
  obtain ⟨-, -, -, hmoves, -⟩ := engineEffect_frame he
  apply dutiful_of_keepsDuties_true
  rw [hmoves]
  rcases hu with ⟨-, rfl⟩ | ⟨rest, hm, rfl⟩ | ⟨rest, -, rfl⟩
  · exact h
  · rw [hm] at h
    exact h
  · exact h

theorem dutiful_of_hostOnly {s t : State} (h : dutiful s) (ht : hostOnly s t) : dutiful t := by
  obtain ⟨⟨-, -, -, -, hphase, -⟩, hstart, hreset, hrun, -, hmoves⟩ := ht
  rw [dutiful, hphase, hmoves]
  cases hm : s.moves with
  | nil => rfl
  | cons m rest =>
    rw [dutiful, hm] at h
    refine keepsDuties_of_cons h (fun code hc => hstart ⟨code, rest, hc ▸ hm⟩) (fun hc => hreset ⟨rest, hc ▸ hm⟩)
      fun hr hc => ?_
    obtain ⟨-, hidle⟩ := hrun (of_decide_eq_true hr)
    exact hidle ⟨s, .inr (.inr ⟨rest, hc ▸ hm, rfl⟩)⟩

theorem dutiful_of_step {s t : State} (h : dutiful s) (ht : step s = .next t) : dutiful t := by
  rcases step_cases ht with ⟨code, rest, hm, hp, rfl⟩ | ⟨u, hu, hp, he⟩ | hhost | ⟨rest, hm, rfl⟩
  · rw [dutiful_iff_of_ready hp, hm] at h
    exact (dutiful_iff_of_run (started_phase code _)).mpr ((started_moves code { s with moves := rest }).symm ▸ h)
  · exact dutiful_of_engineEffect hp h hu he
  · exact dutiful_of_hostOnly h hhost
  · rw [dutiful, hm] at h
    exact (dutiful_iff_of_ready (by rw [resetBlock_phase]; nofun)).mpr h

/-- Settles O57: the invariant and the duties together answer a next state and are kept by it. -/
theorem dutifulHostIsNeverStopped : Obligations.DutifulHostIsNeverStopped := by
  refine fun s hi h => neverStops_of_invariant (P := fun s => Inv s ∧ dutiful s) ?_ ⟨hi, h⟩
  rintro s ⟨hi, h⟩
  obtain ⟨t, ht⟩ : ∃ t, step s = .next t := by
    by_cases hp : s.phase = .run
    · exact step_next_of_run hi hp h
    · exact step_next_of_ready hp h
  exact ⟨t, ht, stepKeepsTheInvariant s t hi ht, dutiful_of_step h ht⟩

end Sys2Proof.Machine
